-- ==== Sys2Proof/Word.lean ====
section
/-! DEFINITION. The word types of the core. Every value is unsigned (00_scope.md R7). -/

namespace Sys2Proof

/-- A 16-bit word: an opcode, the index register, the program counter, a return address. -/
abbrev Word := BitVec 16

/-- An 8-bit byte: a data register, a timer, a memory byte, the immediate `kk`. -/
abbrev Byte := BitVec 8

/-- A 12-bit address field `nnn` of an opcode (30_encoding.md R71). -/
abbrev Addr := BitVec 12

/-- The number of a data register, 0x0 to 0xF; every one is legal (30_encoding.md R74). -/
abbrev Reg := Fin 16

/-- The code of a key, 0x0 to 0xF (10_state.md R28). -/
abbrev Key := Fin 16

/-- `VF`, the last data register, is the flag register (10_state.md R23). -/
abbrev VF : Reg := 15

end Sys2Proof
end

