-- ==== Sys2Proof/Syntax.lean ====
section
/-! DEFINITION. The instruction set: one constructor per row of spec/opcode_table.json (30_encoding.md R80). -/

namespace Sys2Proof

/-- The 34 instructions of 30_encoding.md R80. Register operands and immediates are as wide as their fields
(R71, R73, R74); the row count `n` of `DRW` is a number, held to its range by `Instr.wellFormed`. -/
inductive Instr where
  /-- `CLS`: clear the screen (43_display.md R170). -/
  | cls
  /-- `RET`: return from subroutine (41_control_flow.md R121). -/
  | ret
  /-- `JP nnn`: jump (41_control_flow.md R122). -/
  | jp (nnn : Addr)
  /-- `CALL nnn`: call subroutine (41_control_flow.md R123). -/
  | call (nnn : Addr)
  /-- `SE Vx, kk`: skip if equal to the immediate (41_control_flow.md R125). -/
  | seImm (x : Reg) (kk : Byte)
  /-- `SNE Vx, kk`: skip if not equal to the immediate (41_control_flow.md R126). -/
  | sneImm (x : Reg) (kk : Byte)
  /-- `SE Vx, Vy`: skip if the registers are equal (41_control_flow.md R127). -/
  | seReg (x y : Reg)
  /-- `LD Vx, kk`: load immediate (42_register_alu.md R141). -/
  | ldImm (x : Reg) (kk : Byte)
  /-- `ADD Vx, kk`: add immediate, no flag (42_register_alu.md R142). -/
  | addImm (x : Reg) (kk : Byte)
  /-- `LD Vx, Vy`: register copy (42_register_alu.md R143). -/
  | ldReg (x y : Reg)
  /-- `OR Vx, Vy` (42_register_alu.md R144). -/
  | orReg (x y : Reg)
  /-- `AND Vx, Vy` (42_register_alu.md R145). -/
  | andReg (x y : Reg)
  /-- `XOR Vx, Vy` (42_register_alu.md R146). -/
  | xorReg (x y : Reg)
  /-- `ADD Vx, Vy`: add with carry out (42_register_alu.md R147). -/
  | addReg (x y : Reg)
  /-- `SUB Vx, Vy`: `Vx - Vy` (42_register_alu.md R148). -/
  | subReg (x y : Reg)
  /-- `SHR Vx {, Vy}`: shift right by one; `y` is decoded and ignored (42_register_alu.md R149). -/
  | shr (x y : Reg)
  /-- `SUBN Vx, Vy`: `Vy - Vx` (42_register_alu.md R150). -/
  | subnReg (x y : Reg)
  /-- `SHL Vx {, Vy}`: shift left by one; `y` is decoded and ignored (42_register_alu.md R151). -/
  | shl (x y : Reg)
  /-- `SNE Vx, Vy`: skip if the registers differ (41_control_flow.md R128). -/
  | sneReg (x y : Reg)
  /-- `LD I, nnn`: set the index register (45_index_memory.md R210). -/
  | ldI (nnn : Addr)
  /-- `JP V0, nnn`: jump with offset (41_control_flow.md R124). -/
  | jpV0 (nnn : Addr)
  /-- `RND Vx, kk`: random byte masked by the immediate (42_register_alu.md R153). -/
  | rnd (x : Reg) (kk : Byte)
  /-- `DRW Vx, Vy, n`: draw an `n`-row sprite by XOR (43_display.md R172). -/
  | drw (x y : Reg) (n : Nat)
  /-- `SKP Vx`: skip if the key is pressed (44_input_timers.md R191). -/
  | skp (x : Reg)
  /-- `SKNP Vx`: skip if the key is not pressed (44_input_timers.md R192). -/
  | sknp (x : Reg)
  /-- `LD Vx, DT`: read the delay timer (44_input_timers.md R195). -/
  | ldVxDT (x : Reg)
  /-- `LD Vx, K`: wait for a key press (44_input_timers.md R193). -/
  | ldVxK (x : Reg)
  /-- `LD DT, Vx`: set the delay timer (44_input_timers.md R197). -/
  | ldDTVx (x : Reg)
  /-- `LD ST, Vx`: set the sound timer (44_input_timers.md R198). -/
  | ldSTVx (x : Reg)
  /-- `ADD I, Vx`: add a register to the index register (45_index_memory.md R211). -/
  | addI (x : Reg)
  /-- `LD F, Vx`: point `I` at the glyph of a hex digit (45_index_memory.md R212). -/
  | ldF (x : Reg)
  /-- `LD B, Vx`: store the three decimal digits of `Vx` (45_index_memory.md R213). -/
  | ldB (x : Reg)
  /-- `LD [I], Vx`: store registers `V0` to `Vx` (45_index_memory.md R214). -/
  | ldMemVx (x : Reg)
  /-- `LD Vx, [I]`: load registers `V0` to `Vx` (45_index_memory.md R215). -/
  | ldVxMem (x : Reg)
  deriving DecidableEq, Repr

end Sys2Proof
end

