-- ==== Sys2Proof/Config.lean ====
section
/-! DEFINITION. What is fixed for this hardware (00_scope.md R5) and the one free value. -/

namespace Sys2Proof.Config

/-- `MEM_SIZE`: addresses 0x000 to 0xFFF (00_scope.md R5). -/
abbrev memSize : Nat := 4096

/-- `PROG_BASE`: the load address and the reset value of `pc` (00_scope.md R5). -/
abbrev progBase : Nat := 0x200

/-- `PROG_CAPACITY`: 4096 - 0x200 bytes (00_scope.md R5). -/
abbrev progCapacity : Nat := memSize - progBase

/-- `SPRITE_MAX_ROWS` (00_scope.md R5). -/
abbrev spriteMaxRows : Nat := 15

/-- The free 8-bit input `rnd` of 40_sequencer.md R100, as the stream of bytes the host supplies: the n-th
draw of the machine takes the n-th byte. It has no body, so nothing can be proved about any of its values:
whatever is proved holds for every draw (42_register_alu.md R153, D30, U7; log 1). -/
opaque rnd : Nat → Byte

end Sys2Proof.Config
end

