-- ==== Sys2Proof/WellFormed.lean ====
section
/-! DEFINITION. Which instruction terms an opcode word can spell. -/

namespace Sys2Proof

/-- Every register number and immediate is legal by its type (30_encoding.md R73, R74). The one number that a
term can take out of range is the row count of `DRW`, 0 to 15 (30_encoding.md R73; 00_scope.md R5
`SPRITE_MAX_ROWS`; log 6). -/
def Instr.wellFormed : Instr → Bool
  | .drw _ _ n => n ≤ Config.spriteMaxRows
  | .cls | .ret | .jp _ | .call _ | .seImm _ _ | .sneImm _ _ | .seReg _ _ | .ldImm _ _ | .addImm _ _
  | .ldReg _ _ | .orReg _ _ | .andReg _ _ | .xorReg _ _ | .addReg _ _ | .subReg _ _ | .shr _ _
  | .subnReg _ _ | .shl _ _ | .sneReg _ _ | .ldI _ | .jpV0 _ | .rnd _ _ | .skp _ | .sknp _
  | .ldVxDT _ | .ldVxK _ | .ldDTVx _ | .ldSTVx _ | .addI _ | .ldF _ | .ldB _ | .ldMemVx _
  | .ldVxMem _ => true

end Sys2Proof
end

