-- ==== Sys2Proof/Decode.lean ====
section
/-! DEFINITION. The decoder of 30_encoding.md R77 and, after it, the encoder of R72, R75 and R76. -/

namespace Sys2Proof

/-! ## Fields of an opcode word (30_encoding.md R71) -/

/-- `op`, bits 15:12: the leading nibble. -/
def opField (w : Word) : BitVec 4 := w.extractLsb' 12 4

/-- `x`, bits 11:8: the first register number. -/
def xField (w : Word) : Reg := (w.extractLsb' 8 4).toFin

/-- `y`, bits 7:4: the second register number. -/
def yField (w : Word) : Reg := (w.extractLsb' 4 4).toFin

/-- `n`, bits 3:0: the trailing nibble. -/
def nField (w : Word) : BitVec 4 := w.extractLsb' 0 4

/-- `kk`, bits 7:0: the trailing byte. -/
def kkField (w : Word) : Byte := w.extractLsb' 0 8

/-- `nnn`, bits 11:0: the address. -/
def nnnField (w : Word) : Addr := w.extractLsb' 0 12

/-! ## Decode -/

/-- Why bytes spell no instruction: one name for each line of 30_encoding.md R78, and one for bytes that are
too few for a word (R70). Every one but `truncated` raises `UnknownOpcode` when executed. -/
inductive Illegal where
  /-- `0nnn` other than `00E0` and `00EE`; the classic `SYS nnn` is among them (D6). -/
  | machineCall
  /-- `5xyn` with `n` not 0 (D8). -/
  | seRegTail
  /-- `8xyn` with `n` in 8, 9, A, B, C, D, F. -/
  | aluTail
  /-- `9xyn` with `n` not 0 (D8). -/
  | sneRegTail
  /-- `Exkk` with `kk` not 9E or A1. -/
  | keyFunction
  /-- `Fxkk` with `kk` not one of the nine of R76. -/
  | fxFunction
  /-- Fewer than two bytes. -/
  | truncated
  deriving DecidableEq, Repr

/-- The decode function of 30_encoding.md R77: total on all 65,536 words, a pure function of the word (R79).
The last arm of the outer match is the one leading nibble left, `F`. -/
def decode (w : Word) : Except Illegal Instr :=
  match opField w with
  | 0x0#4 => if w = 0x00E0#16 then .ok .cls else if w = 0x00EE#16 then .ok .ret else .error .machineCall
  | 0x1#4 => .ok (.jp (nnnField w))
  | 0x2#4 => .ok (.call (nnnField w))
  | 0x3#4 => .ok (.seImm (xField w) (kkField w))
  | 0x4#4 => .ok (.sneImm (xField w) (kkField w))
  | 0x5#4 => if nField w = 0x0#4 then .ok (.seReg (xField w) (yField w)) else .error .seRegTail
  | 0x6#4 => .ok (.ldImm (xField w) (kkField w))
  | 0x7#4 => .ok (.addImm (xField w) (kkField w))
  | 0x8#4 =>
    match nField w with
    | 0x0#4 => .ok (.ldReg (xField w) (yField w))
    | 0x1#4 => .ok (.orReg (xField w) (yField w))
    | 0x2#4 => .ok (.andReg (xField w) (yField w))
    | 0x3#4 => .ok (.xorReg (xField w) (yField w))
    | 0x4#4 => .ok (.addReg (xField w) (yField w))
    | 0x5#4 => .ok (.subReg (xField w) (yField w))
    | 0x6#4 => .ok (.shr (xField w) (yField w))
    | 0x7#4 => .ok (.subnReg (xField w) (yField w))
    | 0xE#4 => .ok (.shl (xField w) (yField w))
    | _ => .error .aluTail
  | 0x9#4 => if nField w = 0x0#4 then .ok (.sneReg (xField w) (yField w)) else .error .sneRegTail
  | 0xA#4 => .ok (.ldI (nnnField w))
  | 0xB#4 => .ok (.jpV0 (nnnField w))
  | 0xC#4 => .ok (.rnd (xField w) (kkField w))
  | 0xD#4 => .ok (.drw (xField w) (yField w) (nField w).toNat)
  | 0xE#4 =>
    match kkField w with
    | 0x9E#8 => .ok (.skp (xField w))
    | 0xA1#8 => .ok (.sknp (xField w))
    | _ => .error .keyFunction
  | _ =>
    match kkField w with
    | 0x07#8 => .ok (.ldVxDT (xField w))
    | 0x0A#8 => .ok (.ldVxK (xField w))
    | 0x15#8 => .ok (.ldDTVx (xField w))
    | 0x18#8 => .ok (.ldSTVx (xField w))
    | 0x1E#8 => .ok (.addI (xField w))
    | 0x29#8 => .ok (.ldF (xField w))
    | 0x33#8 => .ok (.ldB (xField w))
    | 0x55#8 => .ok (.ldMemVx (xField w))
    | 0x65#8 => .ok (.ldVxMem (xField w))
    | _ => .error .fxFunction

/-- The word of two bytes, the first the high one: instruction words are big-endian (20_memory.md R55). -/
def wordOfBytes (hi lo : Byte) : Word := hi ++ lo

/-- The two bytes of a word in memory order (20_memory.md R55). -/
def bytesOfWord (w : Word) : List Byte := [w.extractLsb' 8 8, w.extractLsb' 0 8]

/-- Decoding a sequence of bytes: the first instruction and the bytes after it. An instruction is always two
bytes (30_encoding.md R70). -/
def decodeBytes : List Byte → Except Illegal (Instr × List Byte)
  | hi :: lo :: rest =>
    match decode (wordOfBytes hi lo) with
    | .ok i => .ok (i, rest)
    | .error e => .error e
  | [_] => .error .truncated
  | [] => .error .truncated

/-! ## Encode: the six formats of 30_encoding.md R72 -/

/-- Format `A`: `oooo nnnn nnnn nnnn`. -/
def wordA (op : BitVec 4) (nnn : Addr) : Word := BitVec.ofNat 16 (op.toNat * 0x1000 + nnn.toNat)

/-- Formats `XK` and `XF`: `oooo xxxx kkkk kkkk`, where `XF` fixes the trailing byte. -/
def wordXK (op : BitVec 4) (x : Reg) (kk : Byte) : Word :=
  BitVec.ofNat 16 (op.toNat * 0x1000 + x.val * 0x100 + kk.toNat)

/-- Formats `XY` and `XYN`: `oooo xxxx yyyy nnnn`, where `XY` fixes the trailing nibble. -/
def wordXYN (op : BitVec 4) (x y : Reg) (n : BitVec 4) : Word :=
  BitVec.ofNat 16 (op.toNat * 0x1000 + x.val * 0x100 + y.val * 0x10 + n.toNat)

/-- The word of an instruction, from the tables of 30_encoding.md R75 and R76. -/
def encode : Instr → Word
  | .cls => 0x00E0#16
  | .ret => 0x00EE#16
  | .jp nnn => wordA 0x1#4 nnn
  | .call nnn => wordA 0x2#4 nnn
  | .seImm x kk => wordXK 0x3#4 x kk
  | .sneImm x kk => wordXK 0x4#4 x kk
  | .seReg x y => wordXYN 0x5#4 x y 0x0#4
  | .ldImm x kk => wordXK 0x6#4 x kk
  | .addImm x kk => wordXK 0x7#4 x kk
  | .ldReg x y => wordXYN 0x8#4 x y 0x0#4
  | .orReg x y => wordXYN 0x8#4 x y 0x1#4
  | .andReg x y => wordXYN 0x8#4 x y 0x2#4
  | .xorReg x y => wordXYN 0x8#4 x y 0x3#4
  | .addReg x y => wordXYN 0x8#4 x y 0x4#4
  | .subReg x y => wordXYN 0x8#4 x y 0x5#4
  | .shr x y => wordXYN 0x8#4 x y 0x6#4
  | .subnReg x y => wordXYN 0x8#4 x y 0x7#4
  | .shl x y => wordXYN 0x8#4 x y 0xE#4
  | .sneReg x y => wordXYN 0x9#4 x y 0x0#4
  | .ldI nnn => wordA 0xA#4 nnn
  | .jpV0 nnn => wordA 0xB#4 nnn
  | .rnd x kk => wordXK 0xC#4 x kk
  | .drw x y n => wordXYN 0xD#4 x y (BitVec.ofNat 4 n)
  | .skp x => wordXK 0xE#4 x 0x9E#8
  | .sknp x => wordXK 0xE#4 x 0xA1#8
  | .ldVxDT x => wordXK 0xF#4 x 0x07#8
  | .ldVxK x => wordXK 0xF#4 x 0x0A#8
  | .ldDTVx x => wordXK 0xF#4 x 0x15#8
  | .ldSTVx x => wordXK 0xF#4 x 0x18#8
  | .addI x => wordXK 0xF#4 x 0x1E#8
  | .ldF x => wordXK 0xF#4 x 0x29#8
  | .ldB x => wordXK 0xF#4 x 0x33#8
  | .ldMemVx x => wordXK 0xF#4 x 0x55#8
  | .ldVxMem x => wordXK 0xF#4 x 0x65#8

/-! ## The numbering of spec/opcode_table.json -/

/-- The bytes, as memory stores them, of an instruction whose bits are `w` numbered as the opcode table numbers
them. A row has 16 bits; of a longer or shorter count the low 16 bits are taken, those above `nbits` zero
(log 5). -/
def tableWordBytes (nbits w : Nat) : List Byte := bytesOfWord (BitVec.ofNat 16 (w % 2 ^ nbits))

/-- The instruction the decoder reads from a table word; none where it refuses. -/
def decodeTableWord (nbits w : Nat) : Option Instr :=
  match decodeBytes (tableWordBytes nbits w) with
  | .ok (i, _) => some i
  | .error _ => none

end Sys2Proof
end

