-- ==== Sys2Proof/Machine/State.lean ====
section
/-! DEFINITION. The state of the core (10_state.md R22 to R31), the ways a step can stop, and reset (R35). -/

namespace Sys2Proof.Machine

/-- The memory `M`: a list of address and byte pairs in one canonical form (`Memory.wf`). An address that is not
listed holds its reset byte (`resetByte`, 10_state.md R35). -/
abbrev Memory := List Host.Cell

/-- The display buffer `FB[y][x]`: 32 rows of 64 one-bit pixels, true means lit (10_state.md R29). -/
abbrev FrameBuffer := Vector (Vector Bool 64) 32

/-- The whole state of the core: 10_state.md R22 to R30, and one field of the model's own. -/
structure State where
  /-- `V[0]` to `V[15]`, the data registers; `V[15]` is the flag (R22, R23). -/
  v : Vector Byte 16
  /-- `I`, the index register (R24). -/
  i : Word
  /-- `pc`, the program counter (R25). -/
  pc : Word
  /-- `SP`, the number of stack entries in use, 0 to 16 (R26). -/
  sp : Fin 17
  /-- `STACK[0]` to `STACK[15]`, the return addresses (R26). -/
  stack : Vector Word 16
  /-- `DT`, the delay timer (R27). -/
  dt : Byte
  /-- `ST`, the sound timer (R27). -/
  st : Byte
  /-- `KEY[0]` to `KEY[15]`, true means pressed (R28). -/
  key : Vector Bool 16
  /-- `FB`, the display buffer (R29). -/
  fb : FrameBuffer
  /-- `M[0]` to `M[4095]`, the memory (R30). -/
  mem : Memory
  /-- The MODEL's own field, no state of the spec: how many free random bytes have been drawn (log 1). -/
  draws : Nat
  deriving DecidableEq, Repr

/-- Why a step stops with an error: the four errors `executeInstruction` raises (60_exceptions.md R230). None
carries data (R230, D35). Each is safe: the spec has a model record an error as a fault of the run
(40_sequencer.md R110, D13; log 2), and what the core does afterwards is in `State.executeInstruction`. -/
inductive Fault where
  /-- `UnknownOpcode`: raised by `step` when the fetched word matches no instruction (40_sequencer.md R104).
  Safe: the spec's own error. -/
  | unknownOpcode
  /-- `StackOverflow`: raised by `CALL` with 16 entries on the stack (41_control_flow.md R123). Safe: the
  spec's own error. -/
  | stackOverflow
  /-- `StackUnderflow`: raised by `RET` with the stack empty (41_control_flow.md R121). Safe: the spec's own
  error. -/
  | stackUnderflow
  /-- `OutOfBoundsAccess`: raised by the fetch, `DRW`, `LD B`, `LD [I]` and `LD Vx, [I]` for an address above
  0xFFF (20_memory.md R53, 40_sequencer.md R101). Safe: the spec's own error. -/
  | outOfBoundsAccess
  deriving DecidableEq, Repr

/-- Why the model gives no meaning. Every instruction of the table has one, so nothing raises it. -/
inductive Refusal where
  /-- An instruction of the table that has no meaning yet: raised by no arm of `exec`. Safe: it only stops. -/
  | notModelled (mnemonic : String)
  deriving DecidableEq, Repr

/-- What the execution of an instruction answers. -/
abbrev Result := Host.Outcome State Fault Refusal

/-- The state right after `reset()` and at power-on (10_state.md R35; 70_reset_and_hazards.md R260, R261). No
memory byte is listed: each holds its reset byte. `draws` is the model's own (log 1). -/
def State.reset : State where
  v := Vector.replicate 16 0#8
  i := 0x0000#16
  pc := 0x200#16
  sp := 0
  stack := Vector.replicate 16 0x0000#16
  dt := 0x00#8
  st := 0x00#8
  key := Vector.replicate 16 false
  fb := Vector.replicate 32 (Vector.replicate 64 false)
  mem := []
  draws := 0

end Sys2Proof.Machine
end

