-- ==== Sys2Proof/Machine/Font.lean ====
section
/-! DEFINITION. The font of 10_state.md R31 and what every memory byte holds at reset (R35). -/

namespace Sys2Proof.Machine

/-- `FONT_BASE` (00_scope.md R5, C3). -/
def fontBase : Nat := 0x050

/-- `FONT_GLYPH_BYTES` (00_scope.md R5). -/
def glyphBytes : Nat := 5

/-- The font table of 10_state.md R31, glyphs 0 to F; the spec's choice of bytes (D4, K2; log 7). -/
def fontTable : List Byte :=
  [0xF0#8, 0x90#8, 0x90#8, 0x90#8, 0xF0#8] ++ [0x20#8, 0x60#8, 0x20#8, 0x20#8, 0x70#8] ++
  [0xF0#8, 0x10#8, 0xF0#8, 0x80#8, 0xF0#8] ++ [0xF0#8, 0x10#8, 0xF0#8, 0x10#8, 0xF0#8] ++
  [0x90#8, 0x90#8, 0xF0#8, 0x10#8, 0x10#8] ++ [0xF0#8, 0x80#8, 0xF0#8, 0x10#8, 0xF0#8] ++
  [0xF0#8, 0x80#8, 0xF0#8, 0x90#8, 0xF0#8] ++ [0xF0#8, 0x10#8, 0x20#8, 0x40#8, 0x40#8] ++
  [0xF0#8, 0x90#8, 0xF0#8, 0x90#8, 0xF0#8] ++ [0xF0#8, 0x90#8, 0xF0#8, 0x10#8, 0xF0#8] ++
  [0xF0#8, 0x90#8, 0xF0#8, 0x90#8, 0x90#8] ++ [0xE0#8, 0x90#8, 0xE0#8, 0x90#8, 0xE0#8] ++
  [0xF0#8, 0x80#8, 0x80#8, 0x80#8, 0xF0#8] ++ [0xE0#8, 0x90#8, 0x90#8, 0x90#8, 0xE0#8] ++
  [0xF0#8, 0x80#8, 0xF0#8, 0x80#8, 0xF0#8] ++ [0xF0#8, 0x80#8, 0xF0#8, 0x80#8, 0x80#8]

/-- What the byte at an address holds after reset: the font from `fontBase`, zero everywhere else (10_state.md
R35, D28, C5). It is what an address that `Memory` does not list reads as (log 4). -/
def resetByte (a : Nat) : Byte := if fontBase ≤ a then fontTable.getD (a - fontBase) 0x00#8 else 0x00#8

end Sys2Proof.Machine
end

