-- ==== Sys2Proof/Machine/Ops.lean ====
section
/-! DEFINITION. The named operations over registers, stack, keys, display and memory, the fetch, and raising an
error. Every meaning is written over these. -/

namespace Sys2Proof.Machine

/-! ## Data registers (10_state.md R22) -/

/-- Read data register `x`. -/
def State.getV (s : State) (x : Reg) : Byte := s.v[x]

/-- Write data register `x`. -/
def State.setV (s : State) (x : Reg) (b : Byte) : State := { s with v := s.v.set x b }

/-- Load the registers `V[0]` to `V[x]`, register `j` from `f j`; those above `x` stay (45_index_memory.md R215). -/
def State.loadV (s : State) (x : Reg) (f : Nat → Byte) : State :=
  { s with v := Vector.ofFn fun j : Fin 16 => if j ≤ x then f j else s.v[j] }

/-! ## The index register, the program counter and the timers (10_state.md R24, R25, R27) -/

/-- Write the index register. -/
def State.setI (s : State) (a : Word) : State := { s with i := a }

/-- Write the program counter. -/
def State.setPc (s : State) (a : Word) : State := { s with pc := a }

/-- The advance past a fetched word: `pc <- pc + 2` (40_sequencer.md R102). -/
def State.advance (s : State) : State := s.setPc (s.pc + 2#16)

/-- `skip`: `pc <- pc + 2`, after the advance (00_scope.md R8; 41_control_flow.md R129). -/
def State.skip (s : State) : State := s.setPc (s.pc + 2#16)

/-- Park on the instruction in execution: `pc <- pc - 2`, its own address (44_input_timers.md R193, R194). -/
def State.park (s : State) : State := s.setPc (s.pc - 2#16)

/-- Write the delay timer. -/
def State.setDT (s : State) (b : Byte) : State := { s with dt := b }

/-- Write the sound timer. -/
def State.setST (s : State) (b : Byte) : State := { s with st := b }

/-! ## The call stack (10_state.md R26) -/

/-- `push(a)`; none when 16 entries are in use. -/
def State.push (s : State) (a : Word) : Option State :=
  if h : s.sp.val < 16 then
    some { s with stack := s.stack.set s.sp.val a, sp := ⟨s.sp.val + 1, by omega⟩ }
  else none

/-- `pop()`: the popped address and the state after; none when the stack is empty. The entry keeps its value
(41_control_flow.md R121). -/
def State.pop (s : State) : Option (Word × State) :=
  if h : 0 < s.sp.val then
    some (s.stack[s.sp.val - 1]'(by omega), { s with sp := ⟨s.sp.val - 1, by omega⟩ })
  else none

/-! ## Keys (10_state.md R28) -/

/-- Whether key `k` is pressed. -/
def State.keyDown (s : State) (k : Key) : Bool := s.key[k]

/-- Write the state of key `k`. -/
def State.writeKey (s : State) (k : Key) (pressed : Bool) : State := { s with key := s.key.set k pressed }

/-- The least code of a pressed key; none when no key is pressed (44_input_timers.md R193, D22). -/
def State.leastKey (s : State) : Option Key := (List.finRange 16).find? s.keyDown

/-! ## The frame-buffer interface (43_display.md R171) -/

/-- `FbRead(x, y)`. -/
def FrameBuffer.read (fb : FrameBuffer) (x : Fin 64) (y : Fin 32) : Bool := fb[y][x]

/-- `FbWrite(x, y, b)`. -/
def FrameBuffer.write (fb : FrameBuffer) (x : Fin 64) (y : Fin 32) (b : Bool) : FrameBuffer :=
  fb.set y (fb[y].set x b)

/-- The buffer with every pixel false. -/
def FrameBuffer.dark : FrameBuffer := Vector.replicate 32 (Vector.replicate 64 false)

/-- `FbSnapshot()`: all 2048 pixels in row-major order, the rows one after another (43_display.md R180, D36). -/
def FrameBuffer.snapshot (fb : FrameBuffer) : List Bool := (fb.toList.map Vector.toList).flatten

/-- The pixel in column `x` of row `y`. -/
def State.pixel (s : State) (x : Fin 64) (y : Fin 32) : Bool := FrameBuffer.read s.fb x y

/-- Replace the whole display buffer. -/
def State.setFB (s : State) (fb : FrameBuffer) : State := { s with fb := fb }

/-! ## Memory (20_memory.md R50 to R58) -/

/-- The byte an address holds: the listed one, or its reset byte. -/
def Memory.read : Memory → Nat → Byte
  | [], a => resetByte a
  | c :: m, a => if a = c.1 then c.2 else Memory.read m a

/-- Put a byte in front of a memory whose addresses are all higher; a reset byte is not listed. -/
def Memory.cons (a : Nat) (b : Byte) (m : Memory) : Memory := if b = resetByte a then m else (a, b) :: m

/-- Write one byte, keeping the canonical form. -/
def Memory.write : Memory → Nat → Byte → Memory
  | [], a, b => Memory.cons a b []
  | c :: m, a, b =>
    if a < c.1 then Memory.cons a b (c :: m)
    else if a = c.1 then Memory.cons a b m
    else c :: Memory.write m a b

/-- Write bytes to ascending addresses from `a` on (20_memory.md R58). -/
def Memory.writeBytes : Memory → Nat → List Byte → Memory
  | m, _, [] => m
  | m, a, b :: bs => Memory.writeBytes (Memory.write m a b) (a + 1) bs

/-- The canonical form: addresses strictly rising and inside the memory, and no entry equal to what the address
reads as when it is not listed. -/
def Memory.wf : Memory → Bool
  | [] => true
  | c :: m =>
    decide (c.1 < Config.memSize) && decide (c.2 ≠ resetByte c.1) && m.all (fun d => decide (c.1 < d.1)) &&
      Memory.wf m

/-- Whether an address lies in memory: not above 0xFFF (20_memory.md R53). -/
def inMemory (a : Nat) : Bool := a ≤ 0xFFF

/-- Whether each of the `len` addresses from `base` on lies in memory: the check that comes before every write of a
multi-byte access (20_memory.md R54). Addresses are never reduced (R53). -/
def rangeInMemory (base len : Nat) : Bool := (List.range len).all fun j => inMemory (base + j)

/-- `MemRead(a, 1)`; none where it raises `OutOfBoundsAccess` (20_memory.md R53). -/
def State.memRead (s : State) (a : Nat) : Option Byte := if inMemory a then some (Memory.read s.mem a) else none

/-- The byte at an address already found to lie in memory. -/
def State.byteAt (s : State) (a : Nat) : Byte := Memory.read s.mem a

/-- Write bytes to ascending addresses already found to lie in memory. -/
def State.storeBytes (s : State) (a : Nat) (bs : List Byte) : State := { s with mem := Memory.writeBytes s.mem a bs }

/-! ## Fetch (20_memory.md R55; 40_sequencer.md R101) -/

/-- `Fetch16(pc)`, big-endian; none when one of the two bytes lies above 0xFFF. -/
def State.fetch (s : State) : Option Word :=
  match s.memRead s.pc.toNat, s.memRead (s.pc.toNat + 1) with
  | some hi, some lo => some (wordOfBytes hi lo)
  | _, _ => none

/-- The bytes of an instruction stored where the next fetch reads them, by the load of a program from outside
(log 3). Where no fetch can succeed, nothing is stored. -/
def State.placeAtPc (s : State) (bs : List Byte) : State :=
  if s.pc.toNat < 0xFFF then s.storeBytes s.pc.toNat bs else s

/-! ## Errors (60_exceptions.md R232) -/

/-- `raise E`: the current instruction ends at once with the error. The core has no trap mechanism: nothing is
saved, there is no vector and no return from an error (60_exceptions.md R232, R234, R236). The state an error of
an instruction leaves is the state the instruction began in, whose `pc` has already advanced (40_sequencer.md
R107): `State.executeInstruction` keeps it. -/
def raise (e : Fault) : Result := .fault e

/-! ## The step (40_sequencer.md R100) -/

/-- One instruction cycle over a given execution: fetch, advance `pc`, decode, execute. The checks come in the
order of 40_sequencer.md R108. -/
def State.cycle (run : Instr → State → Result) (s : State) : Result :=
  match s.fetch with
  | none => raise .outOfBoundsAccess
  | some w =>
    match decode w with
    | .error _ => raise .unknownOpcode
    | .ok i => run i s.advance

/-- What a cycle that ended in an error leaves: nothing has changed after a failed fetch, and only `pc` has
advanced after any other error (40_sequencer.md R101, R104, R107; 60_exceptions.md R232). -/
def State.afterError (s : State) : State :=
  match s.fetch with
  | none => s
  | some _ => s.advance

/-! ## The free random byte (log 1) -/

/-- The free byte of this draw (42_register_alu.md R153, D30). -/
def State.drawnByte (s : State) : Byte := Config.rnd s.draws

/-- Count a draw, so that the next one takes another free byte. -/
def State.countDraw (s : State) : State := { s with draws := s.draws + 1 }

end Sys2Proof.Machine
end

