-- ==== Sys2Proof/Machine/Operands.lean ====
section
/-! DEFINITION. Operand forms: how the fields of an opcode and the registers they name become addresses, key codes,
digits and pixels. -/

namespace Sys2Proof.Machine

/-- `zext_16(nnn)`: an address field written to `pc` or `I` (30_encoding.md R73). -/
def addr16 (nnn : Addr) : Word := nnn.setWidth 16

/-- `zext_16(V[x])`: a register added to a 16-bit value (41_control_flow.md R124; 45_index_memory.md R211). -/
def byte16 (b : Byte) : Word := b.setWidth 16

/-- The low nibble of a register value: a key code (44_input_timers.md R190, D21) or a hex digit
(45_index_memory.md R212, D20). -/
def lowNibble (b : Byte) : Fin 16 := (b.extractLsb' 0 4).toFin

/-- The address of the glyph of a digit, `0x050 + 5 * d` (45_index_memory.md R212; 10_state.md R31). -/
def glyphAddr (d : Fin 16) : Word := BitVec.ofNat 16 (fontBase + glyphBytes * d.val)

/-- The three decimal digits of a byte, hundreds first (45_index_memory.md R213, K10). -/
def decimalDigits (b : Byte) : List Byte :=
  [BitVec.ofNat 8 (b.toNat / 100), BitVec.ofNat 8 (b.toNat / 10 % 10), BitVec.ofNat 8 (b.toNat % 10)]

/-- The registers `V[0]` to `V[x]`, in order (45_index_memory.md R214). -/
def State.firstRegs (s : State) (x : Reg) : List Byte := s.v.toList.take (x.val + 1)

/-- The `n` sprite bytes `M[I] .. M[I + n - 1]` (43_display.md R172). -/
def State.spriteRows (s : State) (n : Nat) : List Byte := (List.range n).map fun r => s.byteAt (s.i.toNat + r)

/-- The pixel of a coordinate of any size, by wraparound (43_display.md R171). -/
def pixelAt (cx cy : Nat) : Fin 64 × Fin 32 := (Fin.ofNat 64 cx, Fin.ofNat 32 cy)

/-- The pixels under the 1 bits of one sprite row with its leftmost pixel at `(ox, y)`: bit 7 is the leftmost
(43_display.md R173, D19). -/
def rowPixels (ox y : Nat) (row : Byte) : List (Fin 64 × Fin 32) :=
  ((List.range 8).filter fun b => row.getLsbD (7 - b)).map fun b => pixelAt (ox + b) y

/-- The pixels under the 1 bits of a sprite, rows downward from `(ox, oy)` (43_display.md R172). -/
def spritePixels (ox : Nat) : Nat → List Byte → List (Fin 64 × Fin 32)
  | _, [] => []
  | oy, row :: rows => rowPixels ox oy row ++ spritePixels ox (oy + 1) rows

/-- The origin of a sprite, `(V[x] mod 64, V[y] mod 32)` (43_display.md R172). -/
def State.spriteOrigin (s : State) (x y : Reg) : Nat × Nat := ((s.getV x).toNat % 64, (s.getV y).toNat % 32)

end Sys2Proof.Machine
end

