-- ==== Sys2Proof/Machine/ControlFlow.lean ====
section
/-! DEFINITION. The meanings of 41_control_flow.md. On entry `pc` is the instruction's address + 2
(40_sequencer.md R102). -/

namespace Sys2Proof.Machine

/-- Skip the next word where the condition holds (41_control_flow.md R129). -/
def skipIf (c : Bool) (s : State) : Result := .next (if c then s.skip else s)

/-- `RET` (41_control_flow.md R121). -/
def execRet (s : State) : Result :=
  match s.pop with
  | some (a, t) => .next (t.setPc a)
  | none => raise .stackUnderflow

/-- `JP nnn` (41_control_flow.md R122). -/
def execJp (nnn : Addr) (s : State) : Result := .next (s.setPc (addr16 nnn))

/-- `CALL nnn` (41_control_flow.md R123). -/
def execCall (nnn : Addr) (s : State) : Result :=
  match s.push s.pc with
  | some t => .next (t.setPc (addr16 nnn))
  | none => raise .stackOverflow

/-- `JP V0, nnn` (41_control_flow.md R124, D7). -/
def execJpV0 (nnn : Addr) (s : State) : Result := .next (s.setPc (addr16 nnn + byte16 (s.getV 0)))

/-- `SE Vx, kk` (41_control_flow.md R125). -/
def execSeImm (x : Reg) (kk : Byte) (s : State) : Result := skipIf (s.getV x == kk) s

/-- `SNE Vx, kk` (41_control_flow.md R126). -/
def execSneImm (x : Reg) (kk : Byte) (s : State) : Result := skipIf (s.getV x != kk) s

/-- `SE Vx, Vy` (41_control_flow.md R127). -/
def execSeReg (x y : Reg) (s : State) : Result := skipIf (s.getV x == s.getV y) s

/-- `SNE Vx, Vy` (41_control_flow.md R128). -/
def execSneReg (x y : Reg) (s : State) : Result := skipIf (s.getV x != s.getV y) s

end Sys2Proof.Machine
end

