-- ==== Sys2Proof/Machine/Flags.lean ====
section
/-! DEFINITION. Every flag computation: the byte written to `VF` (10_state.md R23; 42_register_alu.md R152). -/

namespace Sys2Proof.Machine

/-- A flag byte: 1 or 0. -/
def flagByte (c : Bool) : Byte := if c then 0x01#8 else 0x00#8

/-- The carry of an add: the true sum exceeds 255 (42_register_alu.md R147). -/
def carryFlag (a b : Byte) : Byte := flagByte (decide (a.toNat + b.toNat > 255))

/-- No borrow of `a - b`: the minuend is at least the subtrahend (42_register_alu.md R148, R150, D16). -/
def noBorrowFlag (a b : Byte) : Byte := flagByte (decide (a.toNat ≥ b.toNat))

/-- The bit a shift right by one moves out, bit 0 (42_register_alu.md R149). -/
def shiftedOutRight (a : Byte) : Byte := flagByte (a.getLsbD 0)

/-- The bit a shift left by one moves out, bit 7 (42_register_alu.md R151). -/
def shiftedOutLeft (a : Byte) : Byte := flagByte (a.getLsbD 7)

/-- Write the flag register (10_state.md R23). -/
def State.setFlag (s : State) (f : Byte) : State := s.setV VF f

/-- Write a result to `V[x]` and then the flag, so that the flag stays when `x` is F (10_state.md R23, D17). -/
def State.setVFlag (s : State) (x : Reg) (result flag : Byte) : State := (s.setV x result).setFlag flag

end Sys2Proof.Machine
end

