-- ==== Sys2Proof/Machine/Display.lean ====
section
/-! DEFINITION. The meanings of 43_display.md. -/

namespace Sys2Proof.Machine

/-- Toggle the pixels one after another, and record in `c` whether a lit pixel was turned off (phase 2 of
43_display.md R172). -/
def blit : FrameBuffer → Bool → List (Fin 64 × Fin 32) → FrameBuffer × Bool
  | fb, c, [] => (fb, c)
  | fb, c, p :: ps =>
    blit (FrameBuffer.write fb p.1 p.2 (!(FrameBuffer.read fb p.1 p.2))) (c || FrameBuffer.read fb p.1 p.2) ps

/-- `CLS`: every pixel false; the flag is not written (43_display.md R170). -/
def execCls (s : State) : Result := .next (s.setFB FrameBuffer.dark)

/-- The draw of `DRW` once its sprite bytes are known to lie in memory: blit, then the flag. The origin is read from
the registers before the flag is written (43_display.md R172). -/
def State.drawSprite (s : State) (x y : Reg) (n : Nat) : State :=
  let origin := s.spriteOrigin x y
  let drawn := blit s.fb false (spritePixels origin.1 origin.2 (s.spriteRows n))
  (s.setFB drawn.1).setFlag (flagByte drawn.2)

/-- `DRW Vx, Vy, n` (43_display.md R172; 20_memory.md R54). -/
def execDrw (x y : Reg) (n : Nat) (s : State) : Result :=
  if rangeInMemory s.i.toNat n then .next (s.drawSprite x y n) else raise .outOfBoundsAccess

end Sys2Proof.Machine
end

