-- ==== Sys2Proof/Machine/IndexMemory.lean ====
section
/-! DEFINITION. The meanings of 45_index_memory.md. `I` is unchanged by every transfer through it (D24). -/

namespace Sys2Proof.Machine

/-- `LD I, nnn` (45_index_memory.md R210). -/
def execLdI (nnn : Addr) (s : State) : Result := .next (s.setI (addr16 nnn))

/-- `ADD I, Vx`: modulo 2^16, no flag, no bounds check (45_index_memory.md R211, D23). -/
def execAddI (x : Reg) (s : State) : Result := .next (s.setI (s.i + byte16 (s.getV x)))

/-- `LD F, Vx` (45_index_memory.md R212). -/
def execLdF (x : Reg) (s : State) : Result := .next (s.setI (glyphAddr (lowNibble (s.getV x))))

/-- Store bytes from `I` on: every address is checked before any byte is written (20_memory.md R54). -/
def State.storeAtI (s : State) (bs : List Byte) : Result :=
  if rangeInMemory s.i.toNat bs.length then .next (s.storeBytes s.i.toNat bs) else raise .outOfBoundsAccess

/-- `LD B, Vx` (45_index_memory.md R213). -/
def execLdB (x : Reg) (s : State) : Result := s.storeAtI (decimalDigits (s.getV x))

/-- `LD [I], Vx` (45_index_memory.md R214). -/
def execLdMemVx (x : Reg) (s : State) : Result := s.storeAtI (s.firstRegs x)

/-- `LD Vx, [I]` (45_index_memory.md R215). -/
def execLdVxMem (x : Reg) (s : State) : Result :=
  if rangeInMemory s.i.toNat (x.val + 1) then .next (s.loadV x fun j => s.byteAt (s.i.toNat + j))
  else raise .outOfBoundsAccess

end Sys2Proof.Machine
end

