-- ==== Sys2Proof/Machine/InputTimers.lean ====
section
/-! DEFINITION. The meanings of 44_input_timers.md. No instruction here can raise an error. -/

namespace Sys2Proof.Machine

/-- `SKP Vx` (44_input_timers.md R190, R191). -/
def execSkp (x : Reg) (s : State) : Result := skipIf (s.keyDown (lowNibble (s.getV x))) s

/-- `SKNP Vx` (44_input_timers.md R190, R192). -/
def execSknp (x : Reg) (s : State) : Result := skipIf (!(s.keyDown (lowNibble (s.getV x)))) s

/-- `LD Vx, K`: the least pressed key, or park on this instruction (44_input_timers.md R193, R194, D22, C1). -/
def execLdVxK (x : Reg) (s : State) : Result :=
  match s.leastKey with
  | some k => .next (s.setV x (BitVec.ofNat 8 k.val))
  | none => .next s.park

/-- `LD Vx, DT` (44_input_timers.md R195). -/
def execLdVxDT (x : Reg) (s : State) : Result := .next (s.setV x s.dt)

/-- `LD DT, Vx` (44_input_timers.md R197). -/
def execLdDTVx (x : Reg) (s : State) : Result := .next (s.setDT (s.getV x))

/-- `LD ST, Vx` (44_input_timers.md R198). -/
def execLdSTVx (x : Reg) (s : State) : Result := .next (s.setST (s.getV x))

end Sys2Proof.Machine
end

