-- ==== Sys2Proof/Machine/RegisterAlu.lean ====
section
/-! DEFINITION. The meanings of 42_register_alu.md. No instruction here can raise an error. -/

namespace Sys2Proof.Machine

/-- `LD Vx, kk` (42_register_alu.md R141). -/
def execLdImm (x : Reg) (kk : Byte) (s : State) : Result := .next (s.setV x kk)

/-- `ADD Vx, kk`: the flag is not written (42_register_alu.md R142, D14). -/
def execAddImm (x : Reg) (kk : Byte) (s : State) : Result := .next (s.setV x (s.getV x + kk))

/-- `LD Vx, Vy` (42_register_alu.md R143). -/
def execLdReg (x y : Reg) (s : State) : Result := .next (s.setV x (s.getV y))

/-- `OR Vx, Vy`: the flag is not written (42_register_alu.md R144, D15). -/
def execOrReg (x y : Reg) (s : State) : Result := .next (s.setV x (s.getV x ||| s.getV y))

/-- `AND Vx, Vy`: the flag is not written (42_register_alu.md R145, D15). -/
def execAndReg (x y : Reg) (s : State) : Result := .next (s.setV x (s.getV x &&& s.getV y))

/-- `XOR Vx, Vy`: the flag is not written (42_register_alu.md R146, D15). -/
def execXorReg (x y : Reg) (s : State) : Result := .next (s.setV x (s.getV x ^^^ s.getV y))

/-- `ADD Vx, Vy` (42_register_alu.md R147). -/
def execAddReg (x y : Reg) (s : State) : Result :=
  .next (s.setVFlag x (s.getV x + s.getV y) (carryFlag (s.getV x) (s.getV y)))

/-- `SUB Vx, Vy`: `Vx - Vy` (42_register_alu.md R148). -/
def execSubReg (x y : Reg) (s : State) : Result :=
  .next (s.setVFlag x (s.getV x - s.getV y) (noBorrowFlag (s.getV x) (s.getV y)))

/-- `SHR Vx {, Vy}`: `y` is ignored and bit 7 is filled with zero (42_register_alu.md R149, C2). -/
def execShr (x _y : Reg) (s : State) : Result :=
  .next (s.setVFlag x (s.getV x >>> 1) (shiftedOutRight (s.getV x)))

/-- `SUBN Vx, Vy`: `Vy - Vx` (42_register_alu.md R150). -/
def execSubnReg (x y : Reg) (s : State) : Result :=
  .next (s.setVFlag x (s.getV y - s.getV x) (noBorrowFlag (s.getV y) (s.getV x)))

/-- `SHL Vx {, Vy}`: `y` is ignored (42_register_alu.md R151). -/
def execShl (x _y : Reg) (s : State) : Result :=
  .next (s.setVFlag x (s.getV x <<< 1) (shiftedOutLeft (s.getV x)))

/-- `RND Vx, kk` with the random byte of the step given: `V[x] <- rnd & kk` (42_register_alu.md R153). -/
def loadMasked (rnd : Byte) (x : Reg) (kk : Byte) (s : State) : State := s.setV x (rnd &&& kk)

/-- `RND Vx, kk`, the random byte a free value drawn at this execution (42_register_alu.md R153, D30; log 1). -/
def execRnd (x : Reg) (kk : Byte) (s : State) : Result := .next (loadMasked s.drawnByte x kk s.countDraw)

end Sys2Proof.Machine
end

