-- ==== Sys2Proof/Machine/Step.lean ====
section
/-! DEFINITION. One step: the transaction `executeInstruction` with its random byte free (40_sequencer.md R100). -/

namespace Sys2Proof.Machine

/-- `executeInstruction()`: runs exactly one instruction (40_sequencer.md R100). An error is a fault of the run
(R110, D13; log 2). -/
def step (s : State) : Host.Outcome State Fault Refusal := s.cycle exec

/-- The state whose next step runs the instruction with the table bits `w`: its bytes stand at `pc`, as a program
loaded from outside would put them (log 3, log 5). -/
def State.withFetchWord (s : State) (nbits w : Nat) : State := s.placeAtPc (tableWordBytes nbits w)

end Sys2Proof.Machine
end

