-- ==== Sys2Proof/Machine/Assembly.lean ====
section
/-! DEFINITION. The assembler syntax of 30_encoding.md R81 (D34): an instruction as a mnemonic and its operands, the
destination first. How characters spell them is not modelled (log 14). -/

namespace Sys2Proof

/-- The mnemonics of 30_encoding.md R75 and R76. -/
inductive Mnemonic where
  | CLS | RET | JP | CALL | SE | SNE | LD | ADD | OR | AND | XOR | SUB | SHR | SUBN | SHL | RND | DRW | SKP | SKNP
  deriving DecidableEq, Repr

/-- One operand (30_encoding.md R81): a data register, one of the six keywords, memory at `I`, or a number. -/
inductive Operand where
  | v (x : Reg)
  | i | dt | st | k | f | b
  | atI
  | kk (b : Byte)
  | nnn (a : Addr)
  | n (rows : Nat)
  deriving DecidableEq, Repr

/-- How the assembler syntax writes an instruction (30_encoding.md R75, R76, R81). `SHR` and `SHL` are written with
their `Vy`. -/
def Instr.assembly : Instr → Mnemonic × List Operand
  | .cls => (.CLS, [])
  | .ret => (.RET, [])
  | .jp nnn => (.JP, [.nnn nnn])
  | .call nnn => (.CALL, [.nnn nnn])
  | .seImm x kk => (.SE, [.v x, .kk kk])
  | .sneImm x kk => (.SNE, [.v x, .kk kk])
  | .seReg x y => (.SE, [.v x, .v y])
  | .ldImm x kk => (.LD, [.v x, .kk kk])
  | .addImm x kk => (.ADD, [.v x, .kk kk])
  | .ldReg x y => (.LD, [.v x, .v y])
  | .orReg x y => (.OR, [.v x, .v y])
  | .andReg x y => (.AND, [.v x, .v y])
  | .xorReg x y => (.XOR, [.v x, .v y])
  | .addReg x y => (.ADD, [.v x, .v y])
  | .subReg x y => (.SUB, [.v x, .v y])
  | .shr x y => (.SHR, [.v x, .v y])
  | .subnReg x y => (.SUBN, [.v x, .v y])
  | .shl x y => (.SHL, [.v x, .v y])
  | .sneReg x y => (.SNE, [.v x, .v y])
  | .ldI nnn => (.LD, [.i, .nnn nnn])
  | .jpV0 nnn => (.JP, [.v 0, .nnn nnn])
  | .rnd x kk => (.RND, [.v x, .kk kk])
  | .drw x y n => (.DRW, [.v x, .v y, .n n])
  | .skp x => (.SKP, [.v x])
  | .sknp x => (.SKNP, [.v x])
  | .ldVxDT x => (.LD, [.v x, .dt])
  | .ldVxK x => (.LD, [.v x, .k])
  | .ldDTVx x => (.LD, [.dt, .v x])
  | .ldSTVx x => (.LD, [.st, .v x])
  | .addI x => (.ADD, [.i, .v x])
  | .ldF x => (.LD, [.f, .v x])
  | .ldB x => (.LD, [.b, .v x])
  | .ldMemVx x => (.LD, [.atI, .v x])
  | .ldVxMem x => (.LD, [.v x, .atI])

/-- The instruction a mnemonic and its operands spell; none where they spell none. `SHR` and `SHL` without their `Vy`
have `y` = 0 (30_encoding.md R81, D34). -/
def assemble : Mnemonic → List Operand → Option Instr
  | .CLS, [] => some .cls
  | .RET, [] => some .ret
  | .JP, [.nnn nnn] => some (.jp nnn)
  | .JP, [.v x, .nnn nnn] => if x = 0 then some (.jpV0 nnn) else none
  | .CALL, [.nnn nnn] => some (.call nnn)
  | .SE, [.v x, .kk kk] => some (.seImm x kk)
  | .SE, [.v x, .v y] => some (.seReg x y)
  | .SNE, [.v x, .kk kk] => some (.sneImm x kk)
  | .SNE, [.v x, .v y] => some (.sneReg x y)
  | .LD, [.v x, .kk kk] => some (.ldImm x kk)
  | .LD, [.v x, .v y] => some (.ldReg x y)
  | .LD, [.i, .nnn nnn] => some (.ldI nnn)
  | .LD, [.v x, .dt] => some (.ldVxDT x)
  | .LD, [.v x, .k] => some (.ldVxK x)
  | .LD, [.dt, .v x] => some (.ldDTVx x)
  | .LD, [.st, .v x] => some (.ldSTVx x)
  | .LD, [.f, .v x] => some (.ldF x)
  | .LD, [.b, .v x] => some (.ldB x)
  | .LD, [.atI, .v x] => some (.ldMemVx x)
  | .LD, [.v x, .atI] => some (.ldVxMem x)
  | .ADD, [.v x, .kk kk] => some (.addImm x kk)
  | .ADD, [.v x, .v y] => some (.addReg x y)
  | .ADD, [.i, .v x] => some (.addI x)
  | .OR, [.v x, .v y] => some (.orReg x y)
  | .AND, [.v x, .v y] => some (.andReg x y)
  | .XOR, [.v x, .v y] => some (.xorReg x y)
  | .SUB, [.v x, .v y] => some (.subReg x y)
  | .SHR, [.v x, .v y] => some (.shr x y)
  | .SHR, [.v x] => some (.shr x 0)
  | .SUBN, [.v x, .v y] => some (.subnReg x y)
  | .SHL, [.v x, .v y] => some (.shl x y)
  | .SHL, [.v x] => some (.shl x 0)
  | .RND, [.v x, .kk kk] => some (.rnd x kk)
  | .DRW, [.v x, .v y, .n n] => if n ≤ 15 then some (.drw x y n) else none
  | .SKP, [.v x] => some (.skp x)
  | .SKNP, [.v x] => some (.sknp x)
  | _, _ => none

end Sys2Proof
end

