-- ==== Sys2Proof/Machine/Transactions.lean ====
section
/-! DEFINITION. The six host transactions (10_state.md R20) and the outputs they drive. Each is atomic, and the host
issues them one at a time (20_memory.md R57; 60_exceptions.md R250). -/

namespace Sys2Proof.Machine

/-- The result of a transaction: `ok` or one of the five errors (60_exceptions.md R230). -/
inductive Status where
  | ok | unknownOpcode | stackOverflow | stackUnderflow | outOfBoundsAccess | capacityExceeded
  deriving DecidableEq, Repr

/-- The numeric code of a result (60_exceptions.md R231, D12). -/
def Status.code : Status → Nat
  | .ok => 0
  | .unknownOpcode => 1
  | .stackOverflow => 2
  | .stackUnderflow => 3
  | .outOfBoundsAccess => 4
  | .capacityExceeded => 5

/-- The result an error of `executeInstruction` is returned as (60_exceptions.md R230). -/
def Fault.status : Fault → Status
  | .unknownOpcode => .unknownOpcode
  | .stackOverflow => .stackOverflow
  | .stackUnderflow => .stackUnderflow
  | .outOfBoundsAccess => .outOfBoundsAccess

/-- `reset()`: every piece of the spec's state as at power-on (70_reset_and_hazards.md R260). The model's own count
of draws goes on, so that the random bytes after a reset are free as well (log 1). -/
def State.hostReset (s : State) : State := { State.reset with draws := s.draws }

/-- `load(romBytes)` (70_reset_and_hazards.md R262). -/
def State.load (s : State) (rom : List Byte) : Status × State :=
  if rom.length > Config.progCapacity then (.capacityExceeded, s) else (.ok, s.storeBytes Config.progBase rom)

/-- `execute(ins, rnd)` with the random byte of the step given: only `RND` reads it (40_sequencer.md R100). -/
def execWith (rnd : Byte) (i : Instr) (s : State) : Result :=
  match i with
  | .rnd x kk => .next (loadMasked rnd x kk s)
  | j => exec j s

/-- `executeInstruction(rnd)` (40_sequencer.md R100): the result, and the state it leaves, after an error as well
(R101, R104, R107, R110; log 2). No instruction is refused (log 10). -/
def State.executeInstruction (s : State) (rnd : Byte) : Status × State :=
  match s.cycle (execWith rnd) with
  | .next t => (.ok, t)
  | .fault e => (e.status, s.afterError)
  | .refused _ => (.unknownOpcode, s.afterError)

/-- One tick of a timer: down by one when it is not zero (60_exceptions.md R240). -/
def tickDown (b : Byte) : Byte := if b = 0x00#8 then b else b - 0x01#8

/-- `tickTimers()` (60_exceptions.md R240). -/
def State.tickTimers (s : State) : State := (s.setDT (tickDown s.dt)).setST (tickDown s.st)

/-- `getDisplay()`: a copy of the frame buffer, row-major (43_display.md R180, D36). -/
def State.getDisplay (s : State) : List Bool := FrameBuffer.snapshot s.fb

/-- `setKey(code, pressed)`: a code above 15 changes nothing (60_exceptions.md R242, D27). -/
def State.setKey (s : State) (code : Nat) (pressed : Bool) : State :=
  if h : code < 16 then s.writeKey ⟨code, h⟩ pressed else s

/-- The output level `sound_active` (60_exceptions.md R243). -/
def State.soundActive (s : State) : Bool := s.st != 0x00#8

/-- One call of the host (10_state.md R20). -/
inductive HostCall where
  | reset
  | load (rom : List Byte)
  | executeInstruction (rnd : Byte)
  | tickTimers
  | getDisplay
  | setKey (code : Nat) (pressed : Bool)
  deriving DecidableEq, Repr

/-- What a call returns: its result, and the frame for `getDisplay` (10_state.md R20). -/
structure Response where
  status : Status
  frame : Option (List Bool)
  deriving DecidableEq, Repr

/-- One transaction: the response and the state after it (10_state.md R20). -/
def State.call (s : State) : HostCall → Response × State
  | .reset => (⟨.ok, none⟩, s.hostReset)
  | .load rom => (⟨(s.load rom).1, none⟩, (s.load rom).2)
  | .executeInstruction rnd => (⟨(s.executeInstruction rnd).1, none⟩, (s.executeInstruction rnd).2)
  | .tickTimers => (⟨.ok, none⟩, s.tickTimers)
  | .getDisplay => (⟨.ok, some s.getDisplay⟩, s)
  | .setKey code pressed => (⟨.ok, none⟩, s.setKey code pressed)

/-- A schedule of transactions, taken one at a time in the order the host issues them (20_memory.md R58;
60_exceptions.md R250): the responses and the last state. An error does not end it: the core keeps no fault latch
(60_exceptions.md R234). -/
def State.calls : List HostCall → State → List Response × State
  | [], s => ([], s)
  | c :: cs, s => ((s.call c).1 :: (State.calls cs (s.call c).2).1, (State.calls cs (s.call c).2).2)

/-- A run: a schedule of transactions up to the first that returns an error, that one included
(70_reset_and_hazards.md R265, D33). -/
def State.run : List HostCall → State → List Response × State
  | [], s => ([], s)
  | c :: cs, s =>
    if (s.call c).1.status = .ok then
      ((s.call c).1 :: (State.run cs (s.call c).2).1, (State.run cs (s.call c).2).2)
    else ([(s.call c).1], (s.call c).2)

end Sys2Proof.Machine
end

