-- ==== Sys2Proof/Safety.lean ====
section
/-! DEFINITION. The terms claims are made in: the observable parts of the state, what changes and what stays, and the
invariant of every run. -/

namespace Sys2Proof.Machine

/-- One observable piece of state, as the observation port of 10_state.md R34 shows it; `draws` is the model's own. -/
inductive Part where
  | v (x : Reg)
  | i
  | pc
  | sp
  | stack (j : Fin 16)
  | dt
  | st
  | key (k : Key)
  | pixel (x : Fin 64) (y : Fin 32)
  | mem (a : Nat)
  | draws
  deriving DecidableEq, Repr

/-- The value a part holds, as a number; a flag, a key or a pixel is 0 or 1. -/
def State.value (s : State) : Part → Nat
  | .v x => (s.getV x).toNat
  | .i => s.i.toNat
  | .pc => s.pc.toNat
  | .sp => s.sp.val
  | .stack j => s.stack[j].toNat
  | .dt => s.dt.toNat
  | .st => s.st.toNat
  | .key k => (s.keyDown k).toNat
  | .pixel x y => (s.pixel x y).toNat
  | .mem a => (s.byteAt a).toNat
  | .draws => s.draws

/-- Every part outside `changed` holds in `t` what it holds in `s`. -/
def OnlyChanges (s t : State) (changed : Part → Prop) : Prop := ∀ p, ¬ changed p → t.value p = s.value p

/-- The parts an instruction may write when it completes (10_state.md R23, R36). `DRW` writes no pixel outside the
buffer and `LD B` and `LD [I]` no byte outside their range from `I` on, the `I` of the state it runs in. -/
def State.mayWrite (s : State) : Instr → Part → Prop
  | .cls, p => ∃ x y, p = .pixel x y
  | .ret, p => p = .pc ∨ p = .sp
  | .jp _, p => p = .pc
  | .call _, p => p = .pc ∨ p = .sp ∨ ∃ j : Fin 16, j.val = s.sp.val ∧ p = .stack j
  | .seImm _ _, p => p = .pc
  | .sneImm _ _, p => p = .pc
  | .seReg _ _, p => p = .pc
  | .ldImm x _, p => p = .v x
  | .addImm x _, p => p = .v x
  | .ldReg x _, p => p = .v x
  | .orReg x _, p => p = .v x
  | .andReg x _, p => p = .v x
  | .xorReg x _, p => p = .v x
  | .addReg x _, p => p = .v x ∨ p = .v VF
  | .subReg x _, p => p = .v x ∨ p = .v VF
  | .shr x _, p => p = .v x ∨ p = .v VF
  | .subnReg x _, p => p = .v x ∨ p = .v VF
  | .shl x _, p => p = .v x ∨ p = .v VF
  | .sneReg _ _, p => p = .pc
  | .ldI _, p => p = .i
  | .jpV0 _, p => p = .pc
  | .rnd x _, p => p = .v x ∨ p = .draws
  | .drw _ _ _, p => p = .v VF ∨ ∃ x y, p = .pixel x y
  | .skp _, p => p = .pc
  | .sknp _, p => p = .pc
  | .ldVxDT x, p => p = .v x
  | .ldVxK x, p => p = .v x ∨ p = .pc
  | .ldDTVx _, p => p = .dt
  | .ldSTVx _, p => p = .st
  | .addI _, p => p = .i
  | .ldF _, p => p = .i
  | .ldB _, p => ∃ j, j < 3 ∧ p = .mem (s.i.toNat + j)
  | .ldMemVx x, p => ∃ j, j ≤ x.val ∧ p = .mem (s.i.toNat + j)
  | .ldVxMem x, p => ∃ r : Reg, r ≤ x ∧ p = .v r

/-- A sprite pixel: some 1 bit of the `n`-row sprite at `I`, drawn from the origin in `V[x]` and `V[y]`, falls on
column `px` of row `py` (43_display.md R172, R173). -/
def State.spriteCovers (s : State) (x y : Reg) (n : Nat) (px : Fin 64) (py : Fin 32) : Prop :=
  ∃ r b, r < n ∧ b < 8 ∧ (s.byteAt (s.i.toNat + r)).getLsbD (7 - b) = true ∧
    px.val = ((s.getV x).toNat % 64 + b) % 64 ∧ py.val = ((s.getV y).toNat % 32 + r) % 32

/-- The instruction the next `executeInstruction` runs; none where the fetch or the decoding fails. -/
def State.fetched (s : State) : Option Instr :=
  match s.fetch with
  | none => none
  | some w => (decode w).toOption

/-- The parts a transaction may write (10_state.md R20, R36). -/
def HostCall.mayWrite (s : State) : HostCall → Part → Prop
  | .reset, p => p ≠ .draws
  | .load rom, p => ∃ j, j < rom.length ∧ p = .mem (Config.progBase + j)
  | .executeInstruction _, p => (p = .pc ∧ s.pc.toNat ≤ 0xFFE) ∨ ∃ i, s.fetched = some i ∧ s.mayWrite i p ∧ p ≠ .draws
  | .tickTimers, p => p = .dt ∨ p = .st
  | .getDisplay, _ => False
  | .setKey code _, p => ∃ k : Key, k.val = code ∧ p = .key k

/-- Apply a change to the state a result carries. -/
def mapNext (f : State → State) : Result → Result
  | .next t => .next (f t)
  | .fault e => .fault e
  | .refused r => .refused r

/-- The invariant of every run: the memory is in its canonical form, `pc` is at most 0x10FE, and every live return
address is at most 0x1000 (40_sequencer.md R106). -/
structure Inv (s : State) : Prop where
  mem_wf : Memory.wf s.mem = true
  pc_le : s.pc.toNat ≤ 0x10FE
  stack_le : ∀ j : Fin 16, j.val < s.sp.val → s.stack[j].toNat ≤ 0x1000

end Sys2Proof.Machine
end

