-- ==== Sys2Proof/Certificates/Slice0/Obligations.lean ====
section
/-! DEFINITION. The statements for the provers. In every statement about `exec`, the state it runs in has `pc` at the
instruction's address + 2 (40_sequencer.md R102). -/

open Sys2Proof Sys2Proof.Machine

/-! ## Encoding -/

/-- Decoding the word of a well-formed instruction gives it back, every operand at every value. The bits of 32 of the
words are the spec's decision D5. -/
def Obligations.DecodeOfEncodeGivesInstruction : Prop :=
  ∀ i : Instr, i.wellFormed = true → decode (encode i) = .ok i

/-- Every word that decodes is the word of the instruction it decodes to, and that is well formed: no two words spell
one instruction. -/
def Obligations.EncodeOfDecodeGivesWord : Prop :=
  ∀ (w : Word) (i : Instr), decode w = .ok i → encode i = w ∧ i.wellFormed = true

/-- The words of the opcode table, as numbers in their fields, decode to their instructions (30_encoding.md R75 and
R76; the assignments are the spec's decision D5). -/
def Obligations.OpcodeTableWordsDecode : Prop :=
  decode 0x00E0#16 = .ok .cls ∧ decode 0x00EE#16 = .ok .ret ∧
  (∀ nnn : Addr,
    decode (BitVec.ofNat 16 (0x1000 + nnn.toNat)) = .ok (.jp nnn) ∧
    decode (BitVec.ofNat 16 (0x2000 + nnn.toNat)) = .ok (.call nnn) ∧
    decode (BitVec.ofNat 16 (0xA000 + nnn.toNat)) = .ok (.ldI nnn) ∧
    decode (BitVec.ofNat 16 (0xB000 + nnn.toNat)) = .ok (.jpV0 nnn)) ∧
  (∀ (x : Reg) (kk : Byte),
    decode (BitVec.ofNat 16 (0x3000 + x.val * 0x100 + kk.toNat)) = .ok (.seImm x kk) ∧
    decode (BitVec.ofNat 16 (0x4000 + x.val * 0x100 + kk.toNat)) = .ok (.sneImm x kk) ∧
    decode (BitVec.ofNat 16 (0x6000 + x.val * 0x100 + kk.toNat)) = .ok (.ldImm x kk) ∧
    decode (BitVec.ofNat 16 (0x7000 + x.val * 0x100 + kk.toNat)) = .ok (.addImm x kk) ∧
    decode (BitVec.ofNat 16 (0xC000 + x.val * 0x100 + kk.toNat)) = .ok (.rnd x kk)) ∧
  (∀ x y : Reg,
    decode (BitVec.ofNat 16 (0x5000 + x.val * 0x100 + y.val * 0x10)) = .ok (.seReg x y) ∧
    decode (BitVec.ofNat 16 (0x8000 + x.val * 0x100 + y.val * 0x10)) = .ok (.ldReg x y) ∧
    decode (BitVec.ofNat 16 (0x8001 + x.val * 0x100 + y.val * 0x10)) = .ok (.orReg x y) ∧
    decode (BitVec.ofNat 16 (0x8002 + x.val * 0x100 + y.val * 0x10)) = .ok (.andReg x y) ∧
    decode (BitVec.ofNat 16 (0x8003 + x.val * 0x100 + y.val * 0x10)) = .ok (.xorReg x y) ∧
    decode (BitVec.ofNat 16 (0x8004 + x.val * 0x100 + y.val * 0x10)) = .ok (.addReg x y) ∧
    decode (BitVec.ofNat 16 (0x8005 + x.val * 0x100 + y.val * 0x10)) = .ok (.subReg x y) ∧
    decode (BitVec.ofNat 16 (0x8006 + x.val * 0x100 + y.val * 0x10)) = .ok (.shr x y) ∧
    decode (BitVec.ofNat 16 (0x8007 + x.val * 0x100 + y.val * 0x10)) = .ok (.subnReg x y) ∧
    decode (BitVec.ofNat 16 (0x800E + x.val * 0x100 + y.val * 0x10)) = .ok (.shl x y) ∧
    decode (BitVec.ofNat 16 (0x9000 + x.val * 0x100 + y.val * 0x10)) = .ok (.sneReg x y) ∧
    ∀ n : Nat, n ≤ 15 →
      decode (BitVec.ofNat 16 (0xD000 + x.val * 0x100 + y.val * 0x10 + n)) = .ok (.drw x y n)) ∧
  (∀ x : Reg,
    decode (BitVec.ofNat 16 (0xE09E + x.val * 0x100)) = .ok (.skp x) ∧
    decode (BitVec.ofNat 16 (0xE0A1 + x.val * 0x100)) = .ok (.sknp x) ∧
    decode (BitVec.ofNat 16 (0xF007 + x.val * 0x100)) = .ok (.ldVxDT x) ∧
    decode (BitVec.ofNat 16 (0xF00A + x.val * 0x100)) = .ok (.ldVxK x) ∧
    decode (BitVec.ofNat 16 (0xF015 + x.val * 0x100)) = .ok (.ldDTVx x) ∧
    decode (BitVec.ofNat 16 (0xF018 + x.val * 0x100)) = .ok (.ldSTVx x) ∧
    decode (BitVec.ofNat 16 (0xF01E + x.val * 0x100)) = .ok (.addI x) ∧
    decode (BitVec.ofNat 16 (0xF029 + x.val * 0x100)) = .ok (.ldF x) ∧
    decode (BitVec.ofNat 16 (0xF033 + x.val * 0x100)) = .ok (.ldB x) ∧
    decode (BitVec.ofNat 16 (0xF055 + x.val * 0x100)) = .ok (.ldMemVx x) ∧
    decode (BitVec.ofNat 16 (0xF065 + x.val * 0x100)) = .ok (.ldVxMem x))

/-- A word is rejected exactly when it is on the list of 30_encoding.md R78 (the spec's decisions D6 and D8). -/
def Obligations.IllegalWordsAreExactlyTheListed : Prop :=
  ∀ w : Word, (∃ e, decode w = .error e) ↔
    (w.toNat / 0x1000 = 0x0 ∧ w.toNat ≠ 0x0E0 ∧ w.toNat ≠ 0x0EE) ∨
    (w.toNat / 0x1000 = 0x5 ∧ w.toNat % 0x10 ≠ 0) ∨
    (w.toNat / 0x1000 = 0x8 ∧ w.toNat % 0x10 ∈ [0x8, 0x9, 0xA, 0xB, 0xC, 0xD, 0xF]) ∨
    (w.toNat / 0x1000 = 0x9 ∧ w.toNat % 0x10 ≠ 0) ∨
    (w.toNat / 0x1000 = 0xE ∧ w.toNat % 0x100 ∉ [0x9E, 0xA1]) ∨
    (w.toNat / 0x1000 = 0xF ∧
      w.toNat % 0x100 ∉ [0x07, 0x0A, 0x15, 0x18, 0x1E, 0x29, 0x33, 0x55, 0x65])

/-- A few words written out bit by bit decode to their instructions; `6A02`, `A050` and the illegal `FFFF` are the
source's own words, the others the spec's decision D5. -/
def Obligations.SampleWordsDecode : Prop :=
  decode 0b0110101000000010#16 = .ok (.ldImm 0xA 0x02#8) ∧ decode 0b1010000001010000#16 = .ok (.ldI 0x050#12) ∧
  decode 0b1111111111111111#16 = .error .fxFunction ∧ decode 0b0001001000101000#16 = .ok (.jp 0x228#12) ∧
  decode 0b1101000000010101#16 = .ok (.drw 0 1 5) ∧ decode 0b1110001010011110#16 = .ok (.skp 2)

/-- As a mnemonic with a list of typed operands, the assembler syntax spells each well-formed instruction in one way,
but that `SHR` and `SHL` may leave out a `Vy` of `V0` (30_encoding.md R81, the spec's decision D34). That level is the
model's choice (log 14): the characters of a line, and the label that may stand for an `nnn`, are not in it. -/
def Obligations.AssemblySpellsOneInstruction : Prop :=
  (∀ i : Instr, i.wellFormed = true → assemble i.assembly.1 i.assembly.2 = some i) ∧
  ∀ (m : Mnemonic) (ops : List Operand) (i : Instr), assemble m ops = some i →
    i.wellFormed = true ∧
    ((m, ops) = i.assembly ∨ (∃ x, m = .SHR ∧ ops = [.v x] ∧ i = .shr x 0) ∨
      (∃ x, m = .SHL ∧ ops = [.v x] ∧ i = .shl x 0))

/-! ## The sequencer -/

/-- A step whose two bytes at `pc` decode is the execution of that instruction in the state that differs only in `pc`,
which has advanced by 2. -/
def Obligations.StepRunsTheDecodedInstruction : Prop :=
  ∀ (s : State) (w : Word) (i : Instr), s.pc.toNat ≤ 0xFFE →
    w.toNat = (s.byteAt s.pc.toNat).toNat * 0x100 + (s.byteAt (s.pc.toNat + 1)).toNat →
    decode w = .ok i → step s = exec i { s with pc := s.pc + 2#16 }

/-- A fetch that passes the top of memory raises `OutOfBoundsAccess` and changes nothing; that `pc` does not advance is
the spec's decision D10. -/
def Obligations.FetchPastTopLeavesStateUnchanged : Prop :=
  ∀ (s : State) (rnd : Byte), 0xFFF ≤ s.pc.toNat →
    step s = .fault .outOfBoundsAccess ∧ s.executeInstruction rnd = (.outOfBoundsAccess, s)

/-- A word that decodes to no instruction raises `UnknownOpcode` after the advance of `pc`, and nothing else has
changed. -/
def Obligations.UnknownOpcodeOnlyAdvancesPc : Prop :=
  ∀ (s : State) (rnd : Byte) (w : Word) (e : Illegal), s.pc.toNat ≤ 0xFFE →
    w.toNat = (s.byteAt s.pc.toNat).toNat * 0x100 + (s.byteAt (s.pc.toNat + 1)).toNat →
    decode w = .error e →
    step s = .fault .unknownOpcode ∧
    ∃ t, s.executeInstruction rnd = (.unknownOpcode, t) ∧ t.pc.toNat = s.pc.toNat + 2 ∧ OnlyChanges s t (· = .pc)

/-- An instruction that raises an error aborts: the state after it is the state before the step but for `pc`, which is
the instruction's address + 2. -/
def Obligations.AbortedInstructionsLeaveOnlyPcAdvanced : Prop :=
  ∀ (s t : State) (rnd : Byte) (st : Status), s.pc.toNat ≤ 0xFFE → s.executeInstruction rnd = (st, t) → st ≠ .ok →
    t.pc.toNat = s.pc.toNat + 2 ∧ t = { s with pc := t.pc }

/-- An instruction raises an error only when it is the one of the five here that can, and only on the condition given
there: no instruction has two checks (40_sequencer.md R108, D37). That it does raise it then is stated in
`ReturnPopsIntoPc`, `CallPushesAndJumps`, `DrawFlipsCoveredPixels`, `DecimalDigitsAreStored`,
`RegistersAreStoredThroughI` and `RegistersAreLoadedThroughI`. That `DRW` with no rows raises none is the spec's
decision D18. -/
def Obligations.InstructionsRaiseOnlyTheirOwnError : Prop :=
  ∀ (i : Instr) (s : State) (e : Fault), exec i s = .fault e →
    ((∃ nnn, i = .call nnn) ∧ e = .stackOverflow ∧ s.sp.val = 16) ∨
    (i = .ret ∧ e = .stackUnderflow ∧ s.sp.val = 0) ∨
    ((∃ x y n, i = .drw x y n ∧ n ≠ 0 ∧ 0x1000 < s.i.toNat + n) ∧ e = .outOfBoundsAccess) ∨
    ((∃ x, i = .ldB x) ∧ e = .outOfBoundsAccess ∧ 0xFFF < s.i.toNat + 2) ∨
    ((∃ x : Reg, (i = .ldMemVx x ∨ i = .ldVxMem x) ∧ 0xFFF < s.i.toNat + x.val) ∧ e = .outOfBoundsAccess)

/-- Every instruction has a meaning in every state: none is refused. -/
def Obligations.NoInstructionIsRefused : Prop :=
  ∀ (i : Instr) (s : State) (r : Refusal), exec i s ≠ .refused r

/-- A step is the transaction `executeInstruction` with the free byte of its draw as the random input: the same result
and the same state, but for the model's own count of draws (log 1). -/
def Obligations.StepAgreesWithExecuteInstruction : Prop :=
  ∀ s : State,
    (∀ t, step s = .next t →
      s.executeInstruction (Config.rnd s.draws) = (.ok, { t with draws := s.draws })) ∧
    (∀ e, step s = .fault e → (s.executeInstruction (Config.rnd s.draws)).1 = e.status) ∧
    ((s.executeInstruction (Config.rnd s.draws)).1 = .ok → ∃ t, step s = .next t)

/-- Only `RND` reads the random input: where the next instruction is another, or none, the byte makes no difference. -/
def Obligations.OnlyRndReadsTheRandomInput : Prop :=
  ∀ (s : State) (r₁ r₂ : Byte), (∀ x kk, s.fetched ≠ some (.rnd x kk)) →
    s.executeInstruction r₁ = s.executeInstruction r₂

/-! ## Control flow -/

/-- `RET` pops the return address into `pc`; with the stack empty it raises `StackUnderflow`. -/
def Obligations.ReturnPopsIntoPc : Prop :=
  ∀ s : State,
    (∀ j : Fin 16, s.sp.val = j.val + 1 →
      ∃ t, exec .ret s = .next t ∧ t.pc = s.stack[j] ∧ t.sp.val = j.val ∧
        OnlyChanges s t fun p => p = .pc ∨ p = .sp) ∧
    (s.sp.val = 0 → exec .ret s = .fault .stackUnderflow)

/-- `CALL nnn` pushes `pc`, the return address, and jumps; with 16 entries in use it raises `StackOverflow`. -/
def Obligations.CallPushesAndJumps : Prop :=
  ∀ (s : State) (nnn : Addr),
    (∀ j : Fin 16, s.sp.val = j.val →
      ∃ t, exec (.call nnn) s = .next t ∧ t.pc.toNat = nnn.toNat ∧ t.sp.val = j.val + 1 ∧ t.stack[j] = s.pc ∧
        OnlyChanges s t fun p => p = .pc ∨ p = .sp ∨ p = .stack j) ∧
    (s.sp.val = 16 → exec (.call nnn) s = .fault .stackOverflow)

/-- A `RET` reached after a `CALL`, wherever the subroutine has taken `pc`, returns to the word after the call with
the stack as deep as before. -/
def Obligations.ReturnUndoesCall : Prop :=
  ∀ (s : State) (nnn : Addr) (a : Word), s.sp.val < 16 →
    ∃ t u, exec (.call nnn) s = .next t ∧ exec .ret { t with pc := a } = .next u ∧
      u.pc = s.pc ∧ u.sp = s.sp ∧ ∀ j : Fin 16, j.val < s.sp.val → u.stack[j] = s.stack[j]

/-- `JP nnn` and `JP V0, nnn` set `pc` to the target, the second with `V0` added and not reduced (D7). -/
def Obligations.JumpsSetPc : Prop :=
  ∀ (s : State) (nnn : Addr),
    (∃ t, exec (.jp nnn) s = .next t ∧ t.pc.toNat = nnn.toNat ∧ OnlyChanges s t (· = .pc)) ∧
    (∃ t, exec (.jpV0 nnn) s = .next t ∧ t.pc.toNat = nnn.toNat + (s.getV 0).toNat ∧ OnlyChanges s t (· = .pc))

/-- The four skips on registers and immediates advance `pc` by 2 exactly when their condition holds and change nothing
else. -/
def Obligations.ComparingSkipsAdvancePc : Prop :=
  ∀ (s : State) (x y : Reg) (kk : Byte),
    (∃ t, exec (.seImm x kk) s = .next t ∧ t.pc = (if s.getV x = kk then s.pc + 2#16 else s.pc) ∧
      OnlyChanges s t (· = .pc)) ∧
    (∃ t, exec (.sneImm x kk) s = .next t ∧ t.pc = (if s.getV x = kk then s.pc else s.pc + 2#16) ∧
      OnlyChanges s t (· = .pc)) ∧
    (∃ t, exec (.seReg x y) s = .next t ∧ t.pc = (if s.getV x = s.getV y then s.pc + 2#16 else s.pc) ∧
      OnlyChanges s t (· = .pc)) ∧
    (∃ t, exec (.sneReg x y) s = .next t ∧ t.pc = (if s.getV x = s.getV y then s.pc else s.pc + 2#16) ∧
      OnlyChanges s t (· = .pc))

/-! ## Registers -/

/-- `LD Vx, kk`, whose word is `6xkk`, loads the immediate into `Vx` and changes nothing else. -/
def Obligations.LoadImmediateWritesRegister : Prop :=
  ∀ (s : State) (x : Reg) (kk : Byte),
    decode (BitVec.ofNat 16 (0x6000 + x.val * 0x100 + kk.toNat)) = .ok (.ldImm x kk) ∧
    ∃ t, exec (.ldImm x kk) s = .next t ∧ t.getV x = kk ∧ OnlyChanges s t (· = .v x)

/-- `ADD Vx, kk` adds modulo 256 and writes no flag (the spec's decision D14). -/
def Obligations.AddImmediateWritesNoFlag : Prop :=
  ∀ (s : State) (x : Reg) (kk : Byte),
    ∃ t, exec (.addImm x kk) s = .next t ∧ (t.getV x).toNat = ((s.getV x).toNat + kk.toNat) % 256 ∧
      OnlyChanges s t (· = .v x)

/-- `LD Vx, Vy` copies, and `OR`, `AND` and `XOR` combine bit by bit; none writes the flag (the spec's decision D15). -/
def Obligations.CopyAndLogicWriteNoFlag : Prop :=
  ∀ (s : State) (x y : Reg),
    (∃ t, exec (.ldReg x y) s = .next t ∧ t.getV x = s.getV y ∧ OnlyChanges s t (· = .v x)) ∧
    (∃ t, exec (.orReg x y) s = .next t ∧
      (∀ k, (t.getV x).getLsbD k = ((s.getV x).getLsbD k || (s.getV y).getLsbD k)) ∧ OnlyChanges s t (· = .v x)) ∧
    (∃ t, exec (.andReg x y) s = .next t ∧
      (∀ k, (t.getV x).getLsbD k = ((s.getV x).getLsbD k && (s.getV y).getLsbD k)) ∧ OnlyChanges s t (· = .v x)) ∧
    (∃ t, exec (.xorReg x y) s = .next t ∧
      (∀ k, (t.getV x).getLsbD k = ((s.getV x).getLsbD k ^^ (s.getV y).getLsbD k)) ∧ OnlyChanges s t (· = .v x))

/-- `ADD Vx, Vy` adds modulo 256 and writes the carry to `VF`, which stays when `x` is F (D17). -/
def Obligations.AddRegistersSetsCarry : Prop :=
  ∀ (s : State) (x y : Reg),
    ∃ t, exec (.addReg x y) s = .next t ∧
      (x ≠ VF → (t.getV x).toNat = ((s.getV x).toNat + (s.getV y).toNat) % 256) ∧
      (t.getV VF).toNat = (if (s.getV x).toNat + (s.getV y).toNat > 255 then 1 else 0) ∧
      OnlyChanges s t fun p => p = .v x ∨ p = .v VF

/-- `SUB` and `SUBN` subtract modulo 256 and set `VF` when no borrow occurs, equality among it (D16, D17). -/
def Obligations.SubtractionsSetNoBorrow : Prop :=
  ∀ (s : State) (x y : Reg),
    (∃ t, exec (.subReg x y) s = .next t ∧
      (x ≠ VF → (t.getV x).toNat = ((s.getV x).toNat + 256 - (s.getV y).toNat) % 256) ∧
      (t.getV VF).toNat = (if (s.getV x).toNat < (s.getV y).toNat then 0 else 1) ∧
      OnlyChanges s t fun p => p = .v x ∨ p = .v VF) ∧
    (∃ t, exec (.subnReg x y) s = .next t ∧
      (x ≠ VF → (t.getV x).toNat = ((s.getV y).toNat + 256 - (s.getV x).toNat) % 256) ∧
      (t.getV VF).toNat = (if (s.getV y).toNat < (s.getV x).toNat then 0 else 1) ∧
      OnlyChanges s t fun p => p = .v x ∨ p = .v VF)

/-- `SHR` and `SHL` shift `Vx` by one, whatever `Vy` holds, and move the bit shifted out to `VF` (C2, D17). -/
def Obligations.ShiftsMoveOneBitToFlag : Prop :=
  ∀ (s : State) (x y : Reg),
    (∃ t, exec (.shr x y) s = .next t ∧ (x ≠ VF → (t.getV x).toNat = (s.getV x).toNat / 2) ∧
      (t.getV VF).toNat = (s.getV x).toNat % 2 ∧ OnlyChanges s t fun p => p = .v x ∨ p = .v VF) ∧
    (∃ t, exec (.shl x y) s = .next t ∧ (x ≠ VF → (t.getV x).toNat = (s.getV x).toNat * 2 % 256) ∧
      (t.getV VF).toNat = (s.getV x).toNat / 128 ∧ OnlyChanges s t fun p => p = .v x ∨ p = .v VF)

/-- `RND Vx, kk` keeps the bits of the random byte that `kk` selects: of the step's free byte, and of any byte the
host gives (D30). It holds whatever the free byte is. -/
def Obligations.RandomLoadIsMasked : Prop :=
  ∀ (s : State) (x : Reg) (kk : Byte),
    (∃ t, exec (.rnd x kk) s = .next t ∧
      (∀ k, (t.getV x).getLsbD k = ((Config.rnd s.draws).getLsbD k && kk.getLsbD k)) ∧ t.draws = s.draws + 1 ∧
      OnlyChanges s t fun p => p = .v x ∨ p = .draws) ∧
    (∀ rnd : Byte, ∃ t, execWith rnd (.rnd x kk) s = .next t ∧
      (∀ k, (t.getV x).getLsbD k = (rnd.getLsbD k && kk.getLsbD k)) ∧ OnlyChanges s t (· = .v x))

/-- Only the six flag writers change `VF`, unless it is an instruction's named destination (10_state.md R23; D14, D15,
D17). -/
def Obligations.OnlyFlagWritersChangeFlag : Prop :=
  ∀ (i : Instr) (s t : State), exec i s = .next t → t.getV VF ≠ s.getV VF →
    (∃ x y, i = .addReg x y ∨ i = .subReg x y ∨ i = .subnReg x y ∨ i = .shr x y ∨ i = .shl x y) ∨
    (∃ x y n, i = .drw x y n) ∨
    (∃ kk, i = .ldImm VF kk ∨ i = .addImm VF kk ∨ i = .rnd VF kk) ∨
    (∃ y, i = .ldReg VF y ∨ i = .orReg VF y ∨ i = .andReg VF y ∨ i = .xorReg VF y) ∨
    i = .ldVxDT VF ∨ i = .ldVxK VF ∨ i = .ldVxMem VF

/-! ## Display -/

/-- `CLS` turns every pixel off and changes nothing else. -/
def Obligations.ClearScreenTurnsEveryPixelOff : Prop :=
  ∀ s : State, ∃ t, exec .cls s = .next t ∧ (∀ x y, t.pixel x y = false) ∧
    OnlyChanges s t fun p => ∃ x y, p = .pixel x y

/-- `DRW Vx, Vy, n` flips exactly the pixels its sprite covers and sets `VF` when one of them was lit; with a sprite
byte above 0xFFF it raises `OutOfBoundsAccess`; with no rows it reads nothing (D17, D18, D19). -/
def Obligations.DrawFlipsCoveredPixels : Prop :=
  ∀ (s : State) (x y : Reg) (n : Nat), n ≤ 15 →
    (n = 0 ∨ s.i.toNat + n ≤ 0x1000 →
      ∃ t, exec (.drw x y n) s = .next t ∧
        (∀ px py, s.spriteCovers x y n px py → t.pixel px py = !(s.pixel px py)) ∧
        (∀ px py, ¬ s.spriteCovers x y n px py → t.pixel px py = s.pixel px py) ∧
        ((∃ px py, s.spriteCovers x y n px py ∧ s.pixel px py = true) → t.getV VF = 1#8) ∧
        ((∀ px py, s.spriteCovers x y n px py → s.pixel px py = false) → t.getV VF = 0#8) ∧
        OnlyChanges s t fun p => p = .v VF ∨ ∃ px py, p = .pixel px py) ∧
    (n ≠ 0 → 0x1000 < s.i.toNat + n → exec (.drw x y n) s = .fault .outOfBoundsAccess)

/-- `DRW` depends on the sprite bytes, `I`, `Vx`, `Vy`, `n` and the frame buffer alone: two states that agree on these
give the same pixels and the same flag, or both raise the error. Every other instruction leaves the pixels, but for
`CLS`, which turns all of them off. -/
def Obligations.DrawDependsOnlyOnItsInputs : Prop :=
  (∀ (s s' : State) (x y : Reg) (n : Nat), n ≤ 15 → s.i = s'.i → s.getV x = s'.getV x → s.getV y = s'.getV y →
    (∀ px py, s.pixel px py = s'.pixel px py) →
    (∀ r, r < n → s.byteAt (s.i.toNat + r) = s'.byteAt (s.i.toNat + r)) →
    (∃ t t', exec (.drw x y n) s = .next t ∧ exec (.drw x y n) s' = .next t' ∧
      (∀ px py, t.pixel px py = t'.pixel px py) ∧ t.getV VF = t'.getV VF) ∨
    (exec (.drw x y n) s = .fault .outOfBoundsAccess ∧ exec (.drw x y n) s' = .fault .outOfBoundsAccess)) ∧
  (∀ (i : Instr) (s t : State), exec i s = .next t → (∃ px py, t.pixel px py ≠ s.pixel px py) →
    (∃ x y n, i = .drw x y n) ∨ (i = .cls ∧ ∀ px py, t.pixel px py = false))

/-- Two draws in a row of the same sprite at the same origin restore every pixel, and the second sets `VF` exactly when
a covered pixel was dark before the first (43_display.md R175, derived there). -/
def Obligations.DrawingTwiceRestoresPixels : Prop :=
  ∀ (s t : State) (x y : Reg) (n : Nat), n ≤ 15 → exec (.drw x y n) s = .next t → t.getV x = s.getV x →
    t.getV y = s.getV y →
    ∃ u, exec (.drw x y n) t = .next u ∧ (∀ px py, u.pixel px py = s.pixel px py) ∧
      (u.getV VF = 1#8 ↔ ∃ px py, s.spriteCovers x y n px py ∧ s.pixel px py = false)

/-! ## Keys and timers -/

/-- `SKP` and `SKNP` test the key of the low nibble of `Vx` (D21) and skip on it. -/
def Obligations.KeySkipsTestTheLowNibble : Prop :=
  ∀ (s : State) (x : Reg) (k : Key), k.val = (s.getV x).toNat % 16 →
    (∃ t, exec (.skp x) s = .next t ∧ t.pc = (if s.keyDown k = true then s.pc + 2#16 else s.pc) ∧
      OnlyChanges s t (· = .pc)) ∧
    (∃ t, exec (.sknp x) s = .next t ∧ t.pc = (if s.keyDown k = true then s.pc else s.pc + 2#16) ∧
      OnlyChanges s t (· = .pc))

/-- `LD Vx, K` loads the least pressed key; with no key pressed it takes `pc` back to its own address (D22, C1). -/
def Obligations.KeyWaitTakesLeastKeyOrParks : Prop :=
  ∀ (s : State) (x : Reg),
    (∀ k : Key, s.keyDown k = true → (∀ j, j < k → s.keyDown j = false) →
      ∃ t, exec (.ldVxK x) s = .next t ∧ (t.getV x).toNat = k.val ∧ OnlyChanges s t (· = .v x)) ∧
    ((∀ k, s.keyDown k = false) →
      ∃ t, exec (.ldVxK x) s = .next t ∧ t.pc = s.pc - 2#16 ∧ OnlyChanges s t (· = .pc))

/-- A step on a key wait with no key pressed leaves the whole state as it was, and after the host presses one key the
next step completes it (44_input_timers.md R194, D22). -/
def Obligations.ParkedKeyWaitResumesOnKey : Prop :=
  ∀ (s : State) (x : Reg) (k : Key), s.fetched = some (.ldVxK x) → (∀ j, s.keyDown j = false) →
    step s = .next s ∧
    ∃ t, step (s.setKey k.val true) = .next t ∧ (t.getV x).toNat = k.val ∧ t.pc.toNat = s.pc.toNat + 2 ∧
      OnlyChanges s t fun p => p = .v x ∨ p = .pc ∨ p = .key k

/-- `LD Vx, DT`, `LD DT, Vx` and `LD ST, Vx` copy and change nothing else. -/
def Obligations.TimerTransfersCopy : Prop :=
  ∀ (s : State) (x : Reg),
    (∃ t, exec (.ldVxDT x) s = .next t ∧ t.getV x = s.dt ∧ OnlyChanges s t (· = .v x)) ∧
    (∃ t, exec (.ldDTVx x) s = .next t ∧ t.dt = s.getV x ∧ OnlyChanges s t (· = .dt)) ∧
    (∃ t, exec (.ldSTVx x) s = .next t ∧ t.st = s.getV x ∧ OnlyChanges s t (· = .st))

/-- An instruction changes a timer only by loading a register into the one it names, reads one only if it names it,
reads the keys only if it is `SKP`, `SKNP` or `LD Vx, K`, and never changes a key. -/
def Obligations.TimersAndKeysAreUsedOnlyByName : Prop :=
  (∀ (i : Instr) (s t : State), exec i s = .next t →
    (t.dt ≠ s.dt → ∃ x, i = .ldDTVx x ∧ t.dt = s.getV x) ∧ (t.st ≠ s.st → ∃ x, i = .ldSTVx x ∧ t.st = s.getV x) ∧
      t.key = s.key) ∧
  (∀ (i : Instr) (s : State) (k : Vector Bool 16), (∀ x, i ≠ .skp x ∧ i ≠ .sknp x ∧ i ≠ .ldVxK x) →
    exec i { s with key := k } = mapNext (fun t => { t with key := k }) (exec i s)) ∧
  (∀ (i : Instr) (s : State) (d : Byte), (∀ x, i ≠ .ldVxDT x ∧ i ≠ .ldDTVx x) →
    exec i { s with dt := d } = mapNext (fun t => { t with dt := d }) (exec i s)) ∧
  (∀ (i : Instr) (s : State) (d : Byte), (∀ x, i ≠ .ldSTVx x) →
    exec i { s with st := d } = mapNext (fun t => { t with st := d }) (exec i s)) ∧
  (∀ (s : State) (x : Reg) (d : Byte), exec (.ldDTVx x) { s with dt := d } = exec (.ldDTVx x) s ∧
    exec (.ldSTVx x) { s with st := d } = exec (.ldSTVx x) s)

/-! ## Index register and memory -/

/-- `LD I, nnn`, whose word is `Annn`, sets the index register and changes nothing else. -/
def Obligations.LoadIndexSetsI : Prop :=
  ∀ (s : State) (nnn : Addr),
    decode (BitVec.ofNat 16 (0xA000 + nnn.toNat)) = .ok (.ldI nnn) ∧
    ∃ t, exec (.ldI nnn) s = .next t ∧ t.i.toNat = nnn.toNat ∧ OnlyChanges s t (· = .i)

/-- `ADD I, Vx` adds modulo 2^16, with no flag and no bounds check (D23); `LD F, Vx` points `I` at the glyph of the low
nibble (D20). -/
def Obligations.IndexAddAndFontLookup : Prop :=
  ∀ (s : State) (x : Reg),
    (∃ t, exec (.addI x) s = .next t ∧ t.i.toNat = (s.i.toNat + (s.getV x).toNat) % 65536 ∧
      OnlyChanges s t (· = .i)) ∧
    (∃ t, exec (.ldF x) s = .next t ∧ t.i.toNat = 0x050 + 5 * ((s.getV x).toNat % 16) ∧ OnlyChanges s t (· = .i))

/-- `LD B, Vx` stores the three decimal digits of `Vx` from `I` on, the hundreds first (K10), and nothing else changes;
past the top of memory it raises `OutOfBoundsAccess`. The memory's canonical form is the invariant of
`RunInvariantIsKeptByEveryStep`. -/
def Obligations.DecimalDigitsAreStored : Prop :=
  ∀ (s : State) (x : Reg), Memory.wf s.mem = true →
    (s.i.toNat + 2 ≤ 0xFFF →
      ∃ t, exec (.ldB x) s = .next t ∧ (t.byteAt s.i.toNat).toNat = (s.getV x).toNat / 100 ∧
        (t.byteAt (s.i.toNat + 1)).toNat = (s.getV x).toNat / 10 % 10 ∧
        (t.byteAt (s.i.toNat + 2)).toNat = (s.getV x).toNat % 10 ∧
        OnlyChanges s t fun p => ∃ j, j < 3 ∧ p = .mem (s.i.toNat + j)) ∧
    (0xFFF < s.i.toNat + 2 → exec (.ldB x) s = .fault .outOfBoundsAccess)

/-- `LD [I], Vx` stores `V0` to `Vx` from `I` on, and nothing else changes, `I` among it (D24); past the top of memory
it raises `OutOfBoundsAccess`. -/
def Obligations.RegistersAreStoredThroughI : Prop :=
  ∀ (s : State) (x : Reg), Memory.wf s.mem = true →
    (s.i.toNat + x.val ≤ 0xFFF →
      ∃ t, exec (.ldMemVx x) s = .next t ∧ (∀ r : Reg, r ≤ x → t.byteAt (s.i.toNat + r.val) = s.getV r) ∧
        OnlyChanges s t fun p => ∃ j, j ≤ x.val ∧ p = .mem (s.i.toNat + j)) ∧
    (0xFFF < s.i.toNat + x.val → exec (.ldMemVx x) s = .fault .outOfBoundsAccess)

/-- `LD Vx, [I]` loads `V0` to `Vx` from `I` on, and nothing else changes, `I` and the registers above `x` among it
(D24); past the top of memory it raises `OutOfBoundsAccess`. -/
def Obligations.RegistersAreLoadedThroughI : Prop :=
  ∀ (s : State) (x : Reg),
    (s.i.toNat + x.val ≤ 0xFFF →
      ∃ t, exec (.ldVxMem x) s = .next t ∧ (∀ r : Reg, r ≤ x → t.getV r = s.byteAt (s.i.toNat + r.val)) ∧
        OnlyChanges s t fun p => ∃ r : Reg, r ≤ x ∧ p = .v r) ∧
    (0xFFF < s.i.toNat + x.val → exec (.ldVxMem x) s = .fault .outOfBoundsAccess)

/-- A word stored by `LD [I], Vx` is what a fetch from its address reads, at once (20_memory.md R60, the spec's decision
D26). -/
def Obligations.StoredWordIsFetched : Prop :=
  ∀ (s t : State) (x j k : Reg), Memory.wf s.mem = true → exec (.ldMemVx x) s = .next t → k.val = j.val + 1 → k ≤ x →
    t.pc.toNat = s.i.toNat + j.val →
    ∃ w, t.fetch = some w ∧ w.toNat = (s.getV j).toNat * 0x100 + (s.getV k).toNat

/-! ## The whole machine -/

/-- What each instruction leaves unchanged when it completes: every part of the state outside `State.mayWrite`, which
takes the registers, the stack entry, the pixels and the bytes from 20_memory.md section 1 and the instruction rules of
files 41 to 45. That `VF` is left by `ADD Vx, kk`, by the logic forms and by `ADD I, Vx`, and `I` by the transfers
through it, rests on the spec's decisions D14, D15, D23 and D24 (log 7); `draws` is the model's own (log 1). -/
def Obligations.InstructionsWriteOnlyTheirParts : Prop :=
  ∀ (i : Instr) (s t : State), Memory.wf s.mem = true → exec i s = .next t → OnlyChanges s t (s.mayWrite i)

/-- Each of the six transactions changes only the state listed for it, an `executeInstruction` that ends in an error
among them. `HostCall.mayWrite` is the table of 10_state.md R36 by call, and `State.mayWrite` narrows its 'instructions'
to the instruction that runs: that rests on files 41 to 45 and, as in `InstructionsWriteOnlyTheirParts`, on the spec's
decisions D14, D15, D23 and D24 (log 7). That a failed fetch leaves `pc` is D10, that `setKey` ignores a code above 15 is
D27, and that `reset` and `executeInstruction` leave `draws` is the model's choice (log 1). -/
def Obligations.TransactionsWriteOnlyTheirParts : Prop :=
  ∀ (s : State) (c : HostCall), Memory.wf s.mem = true → OnlyChanges s (s.call c).2 (c.mayWrite s)

/-- The invariant of every run holds at reset. -/
def Obligations.RunInvariantHoldsAtReset : Prop := Inv State.reset

/-- Every step keeps the invariant: the memory stays canonical, `pc` stays at most 0x10FE and every live return address
at most 0x1000 (40_sequencer.md R106, derived there). -/
def Obligations.RunInvariantIsKeptByEveryStep : Prop :=
  ∀ s t : State, Inv s → step s = .next t → Inv t

/-- Every schedule of host transactions keeps the invariant, errors and loads among them. -/
def Obligations.RunInvariantIsKeptByEverySchedule : Prop :=
  ∀ (cs : List HostCall) (s : State), Inv s → Inv (State.calls cs s).2

/-- The observable parts determine the state: two states with canonical memories that agree on every part are equal. -/
def Obligations.ObservablePartsDetermineState : Prop :=
  ∀ s t : State, Memory.wf s.mem = true → Memory.wf t.mem = true → (∀ p, s.value p = t.value p) → s = t

/-! ## Host transactions -/

/-- What `reset()` leaves, from any state: the glyphs of the font (D4) and zero elsewhere in memory (D28), `pc` at 0x200
and every other part zero; `State.reset` is such a state. -/
def Obligations.ResetLeavesTheResetValues : Prop :=
  (∀ (s : State) (p : Part), p ≠ .draws → (s.call .reset).2.value p = State.reset.value p) ∧
  (∀ (d j : Nat) (g : Nat), j < 5 →
    [0xF0909090F0, 0x2060202070, 0xF010F080F0, 0xF010F010F0, 0x9090F01010, 0xF080F010F0, 0xF080F090F0, 0xF010204040,
     0xF090F090F0, 0xF090F010F0, 0xF090F09090, 0xE090E090E0, 0xF0808080F0, 0xE0909090E0, 0xF080F080F0,
     0xF080F08080][d]? = some g →
    State.reset.value (.mem (0x050 + 5 * d + j)) = g / 256 ^ (4 - j) % 256) ∧
  (∀ a, a < 0x050 ∨ 0x0A0 ≤ a → State.reset.value (.mem a) = 0) ∧
  State.reset.value .pc = 0x200 ∧
  (∀ p, (∀ a, p ≠ .mem a) → p ≠ .pc → p ≠ .draws → State.reset.value p = 0)

/-- `load` copies the bytes to memory from 0x200 and changes nothing else; a sequence longer than 3584 bytes fails with
`CapacityExceeded` and changes nothing. -/
def Obligations.LoadCopiesTheRom : Prop :=
  ∀ (s : State) (rom : List Byte), Memory.wf s.mem = true →
    (rom.length ≤ 4096 - 0x200 →
      (s.load rom).1 = .ok ∧ (∀ j, j < rom.length → (s.load rom).2.byteAt (0x200 + j) = rom.getD j 0#8) ∧
        OnlyChanges s (s.load rom).2 fun p => ∃ j, j < rom.length ∧ p = .mem (0x200 + j)) ∧
    (4096 - 0x200 < rom.length → s.load rom = (.capacityExceeded, s))

/-- `tickTimers` decrements each timer by one when it is not zero, always succeeds and changes nothing else; no
instruction ticks a timer: it leaves each unless it is the one that loads it. -/
def Obligations.TickDecrementsEachTimer : Prop :=
  ∀ s : State, (∃ t, s.call .tickTimers = (⟨.ok, none⟩, t) ∧
    (0 < s.dt.toNat → t.dt.toNat + 1 = s.dt.toNat) ∧ (s.dt.toNat = 0 → t.dt.toNat = 0) ∧
    (0 < s.st.toNat → t.st.toNat + 1 = s.st.toNat) ∧ (s.st.toNat = 0 → t.st.toNat = 0) ∧
    OnlyChanges s t fun p => p = .dt ∨ p = .st) ∧
    ∀ rnd : Byte,
      ((∀ x, s.fetched ≠ some (.ldDTVx x)) → (s.executeInstruction rnd).2.dt = s.dt) ∧
      ((∀ x, s.fetched ≠ some (.ldSTVx x)) → (s.executeInstruction rnd).2.st = s.st)

/-- After `n` ticks a timer holds its value less `n`, and no less than 0: from `v`, exactly `v` ticks reach 0 and later
ones leave it (60_exceptions.md R241, derived there). -/
def Obligations.TicksCountDownToZero : Prop :=
  ∀ (n : Nat) (s : State),
    (State.calls (List.replicate n .tickTimers) s).2.dt.toNat = s.dt.toNat - n ∧
    (State.calls (List.replicate n .tickTimers) s).2.st.toNat = s.st.toNat - n

/-- `setKey` writes the one key of its code, always succeeds, and a code above 15 changes nothing (D27). -/
def Obligations.SetKeyWritesOneKey : Prop :=
  ∀ (s : State) (pressed : Bool),
    (∀ k : Key, ∃ t, s.call (.setKey k.val pressed) = (⟨.ok, none⟩, t) ∧ t.keyDown k = pressed ∧
      OnlyChanges s t (· = .key k)) ∧
    (∀ code, 15 < code → s.call (.setKey code pressed) = (⟨.ok, none⟩, s))

/-- `getDisplay` returns the 2048 pixels row by row, element `y * 64 + x` the pixel `(x, y)`, and changes nothing
(D36). -/
def Obligations.DisplayCopyIsRowMajor : Prop :=
  ∀ s : State, ∃ frame, s.call .getDisplay = (⟨.ok, some frame⟩, s) ∧ frame.length = 2048 ∧
    ∀ (x : Fin 64) (y : Fin 32), frame[y.val * 64 + x.val]? = some (s.pixel x y)

/-- `sound_active` is `ST` not zero, and changes only by `LD ST, Vx`, `tickTimers` and `reset`. -/
def Obligations.SoundLevelFollowsSoundTimer : Prop :=
  ∀ s : State, (s.soundActive = true ↔ s.st.toNat ≠ 0) ∧
    ∀ c : HostCall, (s.call c).2.soundActive ≠ s.soundActive →
      c = .tickTimers ∨ c = .reset ∨ ∃ rnd x, c = .executeInstruction rnd ∧ s.fetched = some (.ldSTVx x)

/-- Each transaction returns only its own errors, and the numeric codes of the results are distinct (the numbers are the
spec's decision D12). -/
def Obligations.TransactionsReturnOnlyTheirErrors : Prop :=
  (∀ (s : State) (c : HostCall), (s.call c).1.status ≠ .ok →
    ((∃ rom, c = .load rom) ∧ (s.call c).1.status = .capacityExceeded) ∨
    ((∃ rnd, c = .executeInstruction rnd) ∧ (s.call c).1.status ≠ .capacityExceeded)) ∧
  ∀ a b : Status, a.code = b.code → a = b

/-- A run is the schedule of its transactions where none errs, and where one errs after transactions that do not, it is
the schedule up to that one (70_reset_and_hazards.md R265, the spec's decision D33). -/
def Obligations.RunEndsAtFirstError : Prop :=
  ∀ (cs : List HostCall) (s : State), (∀ r ∈ (State.calls cs s).1, r.status = .ok) →
    State.run cs s = State.calls cs s ∧
    ∀ (c : HostCall) (more : List HostCall), ((State.calls cs s).2.call c).1.status ≠ .ok →
      State.run (cs ++ c :: more) s = State.calls (cs ++ [c]) s
end

