-- ==== Sys2Proof/Laws/Decode.lean ====
section
/-! SUPPORT. The fields of the words the encoder writes, and of every word as a number. -/

namespace Sys2Proof

/-! ## The fields as numbers (30_encoding.md R71) -/

theorem opField_toNat (w : Word) : (opField w).toNat = w.toNat / 0x1000 := by
  simp [opField, BitVec.extractLsb'_toNat, Nat.shiftRight_eq_div_pow]; omega

theorem xField_val (w : Word) : (xField w).val = w.toNat / 0x100 % 0x10 := by
  show (w.extractLsb' 8 4).toNat = _
  simp [BitVec.extractLsb'_toNat, Nat.shiftRight_eq_div_pow]

theorem yField_val (w : Word) : (yField w).val = w.toNat / 0x10 % 0x10 := by
  show (w.extractLsb' 4 4).toNat = _
  simp [BitVec.extractLsb'_toNat, Nat.shiftRight_eq_div_pow]

theorem nField_toNat (w : Word) : (nField w).toNat = w.toNat % 0x10 := by
  simp [nField, BitVec.extractLsb'_toNat]

theorem kkField_toNat (w : Word) : (kkField w).toNat = w.toNat % 0x100 := by
  simp [kkField, BitVec.extractLsb'_toNat]

theorem nnnField_toNat (w : Word) : (nnnField w).toNat = w.toNat % 0x1000 := by
  simp [nnnField, BitVec.extractLsb'_toNat]

/-! ## The words of the formats (30_encoding.md R72) as numbers -/

theorem wordA_toNat (op : BitVec 4) (nnn : Addr) : (wordA op nnn).toNat = op.toNat * 0x1000 + nnn.toNat := by
  have := op.isLt; have := nnn.isLt
  simp [wordA]; omega

theorem wordXK_toNat (op : BitVec 4) (x : Reg) (kk : Byte) :
    (wordXK op x kk).toNat = op.toNat * 0x1000 + x.val * 0x100 + kk.toNat := by
  have := op.isLt; have := x.isLt; have := kk.isLt
  simp [wordXK]; omega

theorem wordXYN_toNat (op : BitVec 4) (x y : Reg) (n : BitVec 4) :
    (wordXYN op x y n).toNat = op.toNat * 0x1000 + x.val * 0x100 + y.val * 0x10 + n.toNat := by
  have := op.isLt; have := x.isLt; have := y.isLt; have := n.isLt
  simp [wordXYN]; omega

/-! ## The fields of the words of the formats -/

@[simp] theorem opField_wordA (op : BitVec 4) (nnn : Addr) : opField (wordA op nnn) = op := by
  apply BitVec.eq_of_toNat_eq
  have := nnn.isLt
  rw [opField_toNat, wordA_toNat]; omega

@[simp] theorem nnnField_wordA (op : BitVec 4) (nnn : Addr) : nnnField (wordA op nnn) = nnn := by
  apply BitVec.eq_of_toNat_eq
  have := nnn.isLt
  rw [nnnField_toNat, wordA_toNat]; omega

@[simp] theorem opField_wordXK (op : BitVec 4) (x : Reg) (kk : Byte) : opField (wordXK op x kk) = op := by
  apply BitVec.eq_of_toNat_eq
  have := x.isLt; have := kk.isLt
  rw [opField_toNat, wordXK_toNat]; omega

@[simp] theorem xField_wordXK (op : BitVec 4) (x : Reg) (kk : Byte) : xField (wordXK op x kk) = x := by
  apply Fin.ext
  have := x.isLt; have := kk.isLt
  rw [xField_val, wordXK_toNat]; omega

@[simp] theorem kkField_wordXK (op : BitVec 4) (x : Reg) (kk : Byte) : kkField (wordXK op x kk) = kk := by
  apply BitVec.eq_of_toNat_eq
  have := kk.isLt
  rw [kkField_toNat, wordXK_toNat]; omega

@[simp] theorem opField_wordXYN (op : BitVec 4) (x y : Reg) (n : BitVec 4) : opField (wordXYN op x y n) = op := by
  apply BitVec.eq_of_toNat_eq
  have := x.isLt; have := y.isLt; have := n.isLt
  rw [opField_toNat, wordXYN_toNat]; omega

@[simp] theorem xField_wordXYN (op : BitVec 4) (x y : Reg) (n : BitVec 4) : xField (wordXYN op x y n) = x := by
  apply Fin.ext
  have := x.isLt; have := y.isLt; have := n.isLt
  rw [xField_val, wordXYN_toNat]; omega

@[simp] theorem yField_wordXYN (op : BitVec 4) (x y : Reg) (n : BitVec 4) : yField (wordXYN op x y n) = y := by
  apply Fin.ext
  have := x.isLt; have := y.isLt; have := n.isLt
  rw [yField_val, wordXYN_toNat]; omega

@[simp] theorem nField_wordXYN (op : BitVec 4) (x y : Reg) (n : BitVec 4) : nField (wordXYN op x y n) = n := by
  apply BitVec.eq_of_toNat_eq
  have := n.isLt
  rw [nField_toNat, wordXYN_toNat]; omega

/-! ## A word is the sum of its fields -/

theorem wordA_fields (w : Word) : wordA (opField w) (nnnField w) = w := by
  apply BitVec.eq_of_toNat_eq
  rw [wordA_toNat, opField_toNat, nnnField_toNat]; omega

theorem wordXK_fields (w : Word) : wordXK (opField w) (xField w) (kkField w) = w := by
  apply BitVec.eq_of_toNat_eq
  rw [wordXK_toNat, opField_toNat, xField_val, kkField_toNat]; omega

theorem wordXYN_fields (w : Word) : wordXYN (opField w) (xField w) (yField w) (nField w) = w := by
  apply BitVec.eq_of_toNat_eq
  rw [wordXYN_toNat, opField_toNat, xField_val, yField_val, nField_toNat]; omega

/-! ## Bytes and words (20_memory.md R55) -/

theorem wordOfBytes_toNat (hi lo : Byte) : (wordOfBytes hi lo).toNat = hi.toNat * 0x100 + lo.toNat := by
  have h := lo.isLt
  show (hi ++ lo : BitVec (8 + 8)).toNat = _
  rw [BitVec.toNat_append, Nat.shiftLeft_eq, Nat.mul_comm, ← Nat.two_pow_add_eq_or_of_lt h]

@[simp] theorem wordOfBytes_of_word (w : Word) :
    wordOfBytes (w.extractLsb' 8 8) (w.extractLsb' 0 8) = w := by
  apply BitVec.eq_of_toNat_eq
  rw [wordOfBytes_toNat]
  simp [BitVec.extractLsb'_toNat, Nat.shiftRight_eq_div_pow]; omega

/-- The decoder on the bytes of a word is the decoder on the word. -/
theorem decodeBytes_bytesOfWord (w : Word) (rest : List Byte) :
    decodeBytes (bytesOfWord w ++ rest) = (decode w).map fun i => (i, rest) := by
  simp only [bytesOfWord, List.cons_append, List.nil_append, decodeBytes, wordOfBytes_of_word]
  cases decode w <;> rfl

end Sys2Proof
end

