-- ==== Sys2Proof/Laws/State.lean ====
section
/-! SUPPORT. One lemma per field per named update of State, and one lemma per update on the observable parts. -/

namespace Sys2Proof.Machine

variable (s : State)

/-! ## `setV` -/

@[simp] theorem State.setV_v (x : Reg) (b : Byte) : (s.setV x b).v = s.v.set x b := rfl
@[simp] theorem State.setV_i (x : Reg) (b : Byte) : (s.setV x b).i = s.i := rfl
@[simp] theorem State.setV_pc (x : Reg) (b : Byte) : (s.setV x b).pc = s.pc := rfl
@[simp] theorem State.setV_sp (x : Reg) (b : Byte) : (s.setV x b).sp = s.sp := rfl
@[simp] theorem State.setV_stack (x : Reg) (b : Byte) : (s.setV x b).stack = s.stack := rfl
@[simp] theorem State.setV_dt (x : Reg) (b : Byte) : (s.setV x b).dt = s.dt := rfl
@[simp] theorem State.setV_st (x : Reg) (b : Byte) : (s.setV x b).st = s.st := rfl
@[simp] theorem State.setV_key (x : Reg) (b : Byte) : (s.setV x b).key = s.key := rfl
@[simp] theorem State.setV_fb (x : Reg) (b : Byte) : (s.setV x b).fb = s.fb := rfl
@[simp] theorem State.setV_mem (x : Reg) (b : Byte) : (s.setV x b).mem = s.mem := rfl
@[simp] theorem State.setV_draws (x : Reg) (b : Byte) : (s.setV x b).draws = s.draws := rfl

/-! ## `loadV` -/

@[simp] theorem State.loadV_v (x : Reg) (f : Nat → Byte) : (s.loadV x f).v = Vector.ofFn fun j : Fin 16 => if j ≤ x then f j else s.v[j] := rfl
@[simp] theorem State.loadV_i (x : Reg) (f : Nat → Byte) : (s.loadV x f).i = s.i := rfl
@[simp] theorem State.loadV_pc (x : Reg) (f : Nat → Byte) : (s.loadV x f).pc = s.pc := rfl
@[simp] theorem State.loadV_sp (x : Reg) (f : Nat → Byte) : (s.loadV x f).sp = s.sp := rfl
@[simp] theorem State.loadV_stack (x : Reg) (f : Nat → Byte) : (s.loadV x f).stack = s.stack := rfl
@[simp] theorem State.loadV_dt (x : Reg) (f : Nat → Byte) : (s.loadV x f).dt = s.dt := rfl
@[simp] theorem State.loadV_st (x : Reg) (f : Nat → Byte) : (s.loadV x f).st = s.st := rfl
@[simp] theorem State.loadV_key (x : Reg) (f : Nat → Byte) : (s.loadV x f).key = s.key := rfl
@[simp] theorem State.loadV_fb (x : Reg) (f : Nat → Byte) : (s.loadV x f).fb = s.fb := rfl
@[simp] theorem State.loadV_mem (x : Reg) (f : Nat → Byte) : (s.loadV x f).mem = s.mem := rfl
@[simp] theorem State.loadV_draws (x : Reg) (f : Nat → Byte) : (s.loadV x f).draws = s.draws := rfl

/-! ## `setI` -/

@[simp] theorem State.setI_v (a : Word) : (s.setI a).v = s.v := rfl
@[simp] theorem State.setI_i (a : Word) : (s.setI a).i = a := rfl
@[simp] theorem State.setI_pc (a : Word) : (s.setI a).pc = s.pc := rfl
@[simp] theorem State.setI_sp (a : Word) : (s.setI a).sp = s.sp := rfl
@[simp] theorem State.setI_stack (a : Word) : (s.setI a).stack = s.stack := rfl
@[simp] theorem State.setI_dt (a : Word) : (s.setI a).dt = s.dt := rfl
@[simp] theorem State.setI_st (a : Word) : (s.setI a).st = s.st := rfl
@[simp] theorem State.setI_key (a : Word) : (s.setI a).key = s.key := rfl
@[simp] theorem State.setI_fb (a : Word) : (s.setI a).fb = s.fb := rfl
@[simp] theorem State.setI_mem (a : Word) : (s.setI a).mem = s.mem := rfl
@[simp] theorem State.setI_draws (a : Word) : (s.setI a).draws = s.draws := rfl

/-! ## `setPc` -/

@[simp] theorem State.setPc_v (a : Word) : (s.setPc a).v = s.v := rfl
@[simp] theorem State.setPc_i (a : Word) : (s.setPc a).i = s.i := rfl
@[simp] theorem State.setPc_pc (a : Word) : (s.setPc a).pc = a := rfl
@[simp] theorem State.setPc_sp (a : Word) : (s.setPc a).sp = s.sp := rfl
@[simp] theorem State.setPc_stack (a : Word) : (s.setPc a).stack = s.stack := rfl
@[simp] theorem State.setPc_dt (a : Word) : (s.setPc a).dt = s.dt := rfl
@[simp] theorem State.setPc_st (a : Word) : (s.setPc a).st = s.st := rfl
@[simp] theorem State.setPc_key (a : Word) : (s.setPc a).key = s.key := rfl
@[simp] theorem State.setPc_fb (a : Word) : (s.setPc a).fb = s.fb := rfl
@[simp] theorem State.setPc_mem (a : Word) : (s.setPc a).mem = s.mem := rfl
@[simp] theorem State.setPc_draws (a : Word) : (s.setPc a).draws = s.draws := rfl

/-! ## `setDT` -/

@[simp] theorem State.setDT_v (b : Byte) : (s.setDT b).v = s.v := rfl
@[simp] theorem State.setDT_i (b : Byte) : (s.setDT b).i = s.i := rfl
@[simp] theorem State.setDT_pc (b : Byte) : (s.setDT b).pc = s.pc := rfl
@[simp] theorem State.setDT_sp (b : Byte) : (s.setDT b).sp = s.sp := rfl
@[simp] theorem State.setDT_stack (b : Byte) : (s.setDT b).stack = s.stack := rfl
@[simp] theorem State.setDT_dt (b : Byte) : (s.setDT b).dt = b := rfl
@[simp] theorem State.setDT_st (b : Byte) : (s.setDT b).st = s.st := rfl
@[simp] theorem State.setDT_key (b : Byte) : (s.setDT b).key = s.key := rfl
@[simp] theorem State.setDT_fb (b : Byte) : (s.setDT b).fb = s.fb := rfl
@[simp] theorem State.setDT_mem (b : Byte) : (s.setDT b).mem = s.mem := rfl
@[simp] theorem State.setDT_draws (b : Byte) : (s.setDT b).draws = s.draws := rfl

/-! ## `setST` -/

@[simp] theorem State.setST_v (b : Byte) : (s.setST b).v = s.v := rfl
@[simp] theorem State.setST_i (b : Byte) : (s.setST b).i = s.i := rfl
@[simp] theorem State.setST_pc (b : Byte) : (s.setST b).pc = s.pc := rfl
@[simp] theorem State.setST_sp (b : Byte) : (s.setST b).sp = s.sp := rfl
@[simp] theorem State.setST_stack (b : Byte) : (s.setST b).stack = s.stack := rfl
@[simp] theorem State.setST_dt (b : Byte) : (s.setST b).dt = s.dt := rfl
@[simp] theorem State.setST_st (b : Byte) : (s.setST b).st = b := rfl
@[simp] theorem State.setST_key (b : Byte) : (s.setST b).key = s.key := rfl
@[simp] theorem State.setST_fb (b : Byte) : (s.setST b).fb = s.fb := rfl
@[simp] theorem State.setST_mem (b : Byte) : (s.setST b).mem = s.mem := rfl
@[simp] theorem State.setST_draws (b : Byte) : (s.setST b).draws = s.draws := rfl

/-! ## `writeKey` -/

@[simp] theorem State.writeKey_v (k : Key) (p : Bool) : (s.writeKey k p).v = s.v := rfl
@[simp] theorem State.writeKey_i (k : Key) (p : Bool) : (s.writeKey k p).i = s.i := rfl
@[simp] theorem State.writeKey_pc (k : Key) (p : Bool) : (s.writeKey k p).pc = s.pc := rfl
@[simp] theorem State.writeKey_sp (k : Key) (p : Bool) : (s.writeKey k p).sp = s.sp := rfl
@[simp] theorem State.writeKey_stack (k : Key) (p : Bool) : (s.writeKey k p).stack = s.stack := rfl
@[simp] theorem State.writeKey_dt (k : Key) (p : Bool) : (s.writeKey k p).dt = s.dt := rfl
@[simp] theorem State.writeKey_st (k : Key) (p : Bool) : (s.writeKey k p).st = s.st := rfl
@[simp] theorem State.writeKey_key (k : Key) (p : Bool) : (s.writeKey k p).key = s.key.set k p := rfl
@[simp] theorem State.writeKey_fb (k : Key) (p : Bool) : (s.writeKey k p).fb = s.fb := rfl
@[simp] theorem State.writeKey_mem (k : Key) (p : Bool) : (s.writeKey k p).mem = s.mem := rfl
@[simp] theorem State.writeKey_draws (k : Key) (p : Bool) : (s.writeKey k p).draws = s.draws := rfl

/-! ## `setFB` -/

@[simp] theorem State.setFB_v (fb : FrameBuffer) : (s.setFB fb).v = s.v := rfl
@[simp] theorem State.setFB_i (fb : FrameBuffer) : (s.setFB fb).i = s.i := rfl
@[simp] theorem State.setFB_pc (fb : FrameBuffer) : (s.setFB fb).pc = s.pc := rfl
@[simp] theorem State.setFB_sp (fb : FrameBuffer) : (s.setFB fb).sp = s.sp := rfl
@[simp] theorem State.setFB_stack (fb : FrameBuffer) : (s.setFB fb).stack = s.stack := rfl
@[simp] theorem State.setFB_dt (fb : FrameBuffer) : (s.setFB fb).dt = s.dt := rfl
@[simp] theorem State.setFB_st (fb : FrameBuffer) : (s.setFB fb).st = s.st := rfl
@[simp] theorem State.setFB_key (fb : FrameBuffer) : (s.setFB fb).key = s.key := rfl
@[simp] theorem State.setFB_fb (fb : FrameBuffer) : (s.setFB fb).fb = fb := rfl
@[simp] theorem State.setFB_mem (fb : FrameBuffer) : (s.setFB fb).mem = s.mem := rfl
@[simp] theorem State.setFB_draws (fb : FrameBuffer) : (s.setFB fb).draws = s.draws := rfl

/-! ## `storeBytes` -/

@[simp] theorem State.storeBytes_v (a : Nat) (bs : List Byte) : (s.storeBytes a bs).v = s.v := rfl
@[simp] theorem State.storeBytes_i (a : Nat) (bs : List Byte) : (s.storeBytes a bs).i = s.i := rfl
@[simp] theorem State.storeBytes_pc (a : Nat) (bs : List Byte) : (s.storeBytes a bs).pc = s.pc := rfl
@[simp] theorem State.storeBytes_sp (a : Nat) (bs : List Byte) : (s.storeBytes a bs).sp = s.sp := rfl
@[simp] theorem State.storeBytes_stack (a : Nat) (bs : List Byte) : (s.storeBytes a bs).stack = s.stack := rfl
@[simp] theorem State.storeBytes_dt (a : Nat) (bs : List Byte) : (s.storeBytes a bs).dt = s.dt := rfl
@[simp] theorem State.storeBytes_st (a : Nat) (bs : List Byte) : (s.storeBytes a bs).st = s.st := rfl
@[simp] theorem State.storeBytes_key (a : Nat) (bs : List Byte) : (s.storeBytes a bs).key = s.key := rfl
@[simp] theorem State.storeBytes_fb (a : Nat) (bs : List Byte) : (s.storeBytes a bs).fb = s.fb := rfl
@[simp] theorem State.storeBytes_mem (a : Nat) (bs : List Byte) : (s.storeBytes a bs).mem = Memory.writeBytes s.mem a bs := rfl
@[simp] theorem State.storeBytes_draws (a : Nat) (bs : List Byte) : (s.storeBytes a bs).draws = s.draws := rfl

/-! ## `countDraw` -/

@[simp] theorem State.countDraw_v : (s.countDraw).v = s.v := rfl
@[simp] theorem State.countDraw_i : (s.countDraw).i = s.i := rfl
@[simp] theorem State.countDraw_pc : (s.countDraw).pc = s.pc := rfl
@[simp] theorem State.countDraw_sp : (s.countDraw).sp = s.sp := rfl
@[simp] theorem State.countDraw_stack : (s.countDraw).stack = s.stack := rfl
@[simp] theorem State.countDraw_dt : (s.countDraw).dt = s.dt := rfl
@[simp] theorem State.countDraw_st : (s.countDraw).st = s.st := rfl
@[simp] theorem State.countDraw_key : (s.countDraw).key = s.key := rfl
@[simp] theorem State.countDraw_fb : (s.countDraw).fb = s.fb := rfl
@[simp] theorem State.countDraw_mem : (s.countDraw).mem = s.mem := rfl
@[simp] theorem State.countDraw_draws : (s.countDraw).draws = s.draws + 1 := rfl

/-! ## The updates that are another update -/

@[simp] theorem State.advance_eq : s.advance = s.setPc (s.pc + 2#16) := rfl
@[simp] theorem State.skip_eq : s.skip = s.setPc (s.pc + 2#16) := rfl
@[simp] theorem State.park_eq : s.park = s.setPc (s.pc - 2#16) := rfl
@[simp] theorem State.setFlag_eq (f : Byte) : s.setFlag f = s.setV VF f := rfl
@[simp] theorem State.setVFlag_eq (x : Reg) (r f : Byte) : s.setVFlag x r f = (s.setV x r).setV VF f := rfl

/-! ## Reads of registers -/

@[simp] theorem State.getV_setV (x r : Reg) (b : Byte) : (s.setV x b).getV r = if x = r then b else s.getV r := by
  simp [State.getV, Vector.getElem_set, Fin.ext_iff]

@[simp] theorem State.getV_loadV (x r : Reg) (f : Nat → Byte) :
    (s.loadV x f).getV r = if r ≤ x then f r else s.getV r := by
  simp [State.getV]

@[simp] theorem State.getV_setI (a : Word) (r : Reg) : (s.setI a).getV r = s.getV r := rfl
@[simp] theorem State.getV_setPc (a : Word) (r : Reg) : (s.setPc a).getV r = s.getV r := rfl
@[simp] theorem State.getV_setDT (b : Byte) (r : Reg) : (s.setDT b).getV r = s.getV r := rfl
@[simp] theorem State.getV_setST (b : Byte) (r : Reg) : (s.setST b).getV r = s.getV r := rfl
@[simp] theorem State.getV_writeKey (k : Key) (p : Bool) (r : Reg) : (s.writeKey k p).getV r = s.getV r := rfl
@[simp] theorem State.getV_setFB (fb : FrameBuffer) (r : Reg) : (s.setFB fb).getV r = s.getV r := rfl
@[simp] theorem State.getV_storeBytes (a : Nat) (bs : List Byte) (r : Reg) : (s.storeBytes a bs).getV r = s.getV r := rfl
@[simp] theorem State.getV_countDraw (r : Reg) : (s.countDraw).getV r = s.getV r := rfl

/-! ## The observable parts after an update -/

theorem State.value_setV (x : Reg) (b : Byte) (p : Part) :
    (s.setV x b).value p = if p = .v x then b.toNat else s.value p := by
  cases p with
  | v r => by_cases h : x = r <;> simp [State.value, h, eq_comm]
  | _ => simp [State.value, State.keyDown, State.pixel, State.byteAt]

theorem State.value_loadV (x : Reg) (f : Nat → Byte) (r : Reg) :
    (s.loadV x f).value (.v r) = if r ≤ x then (f r).toNat else s.value (.v r) := by
  by_cases h : r ≤ x <;> simp [State.value, h]

theorem State.value_loadV_other (x : Reg) (f : Nat → Byte) (p : Part) (h : ∀ r, p ≠ .v r) :
    (s.loadV x f).value p = s.value p := by
  cases p with
  | v r => exact absurd rfl (h r)
  | _ => simp [State.value, State.keyDown, State.pixel, State.byteAt]

theorem State.value_setI (a : Word) (p : Part) :
    (s.setI a).value p = if p = .i then a.toNat else s.value p := by
  cases p <;> simp [State.value, State.keyDown, State.pixel, State.byteAt]

theorem State.value_setPc (a : Word) (p : Part) :
    (s.setPc a).value p = if p = .pc then a.toNat else s.value p := by
  cases p <;> simp [State.value, State.keyDown, State.pixel, State.byteAt]

theorem State.value_setDT (b : Byte) (p : Part) :
    (s.setDT b).value p = if p = .dt then b.toNat else s.value p := by
  cases p <;> simp [State.value, State.keyDown, State.pixel, State.byteAt]

theorem State.value_setST (b : Byte) (p : Part) :
    (s.setST b).value p = if p = .st then b.toNat else s.value p := by
  cases p <;> simp [State.value, State.keyDown, State.pixel, State.byteAt]

theorem State.value_countDraw (p : Part) :
    s.countDraw.value p = if p = .draws then s.draws + 1 else s.value p := by
  cases p <;> simp [State.value, State.keyDown, State.pixel, State.byteAt]

theorem State.value_writeKey (k : Key) (b : Bool) (p : Part) :
    (s.writeKey k b).value p = if p = .key k then b.toNat else s.value p := by
  cases p with
  | key j =>
    by_cases h : j = k
    · subst h; simp [State.value, State.keyDown]
    · have h' : ¬ k.val = j.val := fun e => h (Fin.ext e.symm)
      simp [State.value, State.keyDown, h, h']
  | _ => simp [State.value, State.pixel, State.byteAt]

theorem State.value_setFB_pixel (fb : FrameBuffer) (x : Fin 64) (y : Fin 32) :
    (s.setFB fb).value (.pixel x y) = (FrameBuffer.read fb x y).toNat := rfl

theorem State.value_setFB_other (fb : FrameBuffer) (p : Part) (h : ∀ x y, p ≠ .pixel x y) :
    (s.setFB fb).value p = s.value p := by
  cases p with
  | pixel x y => exact absurd rfl (h x y)
  | _ => rfl

theorem State.value_storeBytes_mem (a : Nat) (bs : List Byte) (c : Nat) :
    (s.storeBytes a bs).value (.mem c) = (Memory.read (Memory.writeBytes s.mem a bs) c).toNat := rfl

theorem State.value_storeBytes_other (a : Nat) (bs : List Byte) (p : Part) (h : ∀ c, p ≠ .mem c) :
    (s.storeBytes a bs).value p = s.value p := by
  cases p with
  | mem c => exact absurd rfl (h c)
  | _ => rfl

/-! ## What changes -/

theorem OnlyChanges.refl (c : Part → Prop) : OnlyChanges s s c := fun _ _ => rfl

theorem OnlyChanges.trans {s t u : State} {c : Part → Prop} (h : OnlyChanges s t c) (k : OnlyChanges t u c) :
    OnlyChanges s u c := fun p hp => (k p hp).trans (h p hp)

theorem OnlyChanges.mono {s t : State} {c d : Part → Prop} (h : OnlyChanges s t c) (hcd : ∀ p, c p → d p) :
    OnlyChanges s t d := fun p hp => h p fun hc => hp (hcd p hc)

theorem State.setV_onlyChanges (x : Reg) (b : Byte) : OnlyChanges s (s.setV x b) (· = .v x) := fun p hp => by
  simp [State.value_setV, hp]

theorem State.setVFlag_onlyChanges (x : Reg) (r f : Byte) :
    OnlyChanges s (s.setVFlag x r f) fun p => p = .v x ∨ p = .v VF := fun p hp => by
  rw [not_or] at hp
  simp [State.value_setV, hp]

theorem State.loadV_onlyChanges (x : Reg) (f : Nat → Byte) :
    OnlyChanges s (s.loadV x f) fun p => ∃ r : Reg, r ≤ x ∧ p = .v r := fun p hp => by
  cases p with
  | v r =>
    have : ¬ r ≤ x := fun h => hp ⟨r, h, rfl⟩
    rw [State.value_loadV, if_neg this]
  | _ => exact s.value_loadV_other x f _ (by simp)

theorem State.setI_onlyChanges (a : Word) : OnlyChanges s (s.setI a) (· = .i) := fun p hp => by
  simp [State.value_setI, hp]

theorem State.setPc_onlyChanges (a : Word) : OnlyChanges s (s.setPc a) (· = .pc) := fun p hp => by
  simp [State.value_setPc, hp]

theorem State.setDT_onlyChanges (b : Byte) : OnlyChanges s (s.setDT b) (· = .dt) := fun p hp => by
  simp [State.value_setDT, hp]

theorem State.setST_onlyChanges (b : Byte) : OnlyChanges s (s.setST b) (· = .st) := fun p hp => by
  simp [State.value_setST, hp]

theorem State.writeKey_onlyChanges (k : Key) (b : Bool) : OnlyChanges s (s.writeKey k b) (· = .key k) := fun p hp => by
  simp [State.value_writeKey, hp]

theorem State.setFB_onlyChanges (fb : FrameBuffer) :
    OnlyChanges s (s.setFB fb) fun p => ∃ x y, p = .pixel x y := fun p hp =>
  s.value_setFB_other fb p fun x y h => hp ⟨x, y, h⟩

end Sys2Proof.Machine
end

