-- ==== Sys2Proof/Laws/Memory.lean ====
section
/-! SUPPORT. The laws of memory: read after write, the canonical form, and the bounds check. -/

namespace Sys2Proof.Machine

@[simp] theorem fontTable_length : fontTable.length = 80 := by decide

/-- Outside the font every byte is zero at reset. -/
theorem resetByte_outside_font {a : Nat} (h : a < 0x050 ∨ 0x0A0 ≤ a) : resetByte a = 0x00#8 := by
  unfold resetByte fontBase
  split
  · rw [List.getD_eq_getElem?_getD, List.getElem?_eq_none (by rw [fontTable_length]; omega)]; rfl
  · rfl

@[simp] theorem Memory.read_nil (a : Nat) : Memory.read [] a = resetByte a := rfl

theorem Memory.read_cons (c : Host.Cell) (m : Memory) (a : Nat) :
    Memory.read (c :: m) a = if a = c.1 then c.2 else Memory.read m a := rfl

theorem Memory.wf_cons (c : Host.Cell) (m : Memory) :
    Memory.wf (c :: m) = true ↔
      c.1 < 4096 ∧ c.2 ≠ resetByte c.1 ∧ (∀ d ∈ m, c.1 < d.1) ∧ Memory.wf m = true := by
  simp [Memory.wf, and_assoc]

/-- An address below every listed one reads as its reset byte. -/
theorem Memory.read_below {m : Memory} {a : Nat} (h : ∀ d ∈ m, a < d.1) : Memory.read m a = resetByte a := by
  induction m with
  | nil => rfl
  | cons c m ih =>
    have hc : a < c.1 := h c (by simp)
    rw [Memory.read_cons, if_neg (by omega)]
    exact ih fun d hd => h d (by simp [hd])

/-- A canonical memory lists nothing above 0xFFF. -/
theorem Memory.read_above {m : Memory} (hm : Memory.wf m = true) {a : Nat} (ha : 4096 ≤ a) :
    Memory.read m a = resetByte a := by
  induction m with
  | nil => rfl
  | cons c m ih =>
    obtain ⟨h1, -, -, h4⟩ := (Memory.wf_cons c m).1 hm
    rw [Memory.read_cons, if_neg (by omega)]
    exact ih h4

theorem Memory.read_cons' {m : Memory} {a : Nat} (h : ∀ d ∈ m, a < d.1) (b : Byte) (x : Nat) :
    Memory.read (Memory.cons a b m) x = if x = a then b else Memory.read m x := by
  unfold Memory.cons
  split
  · next hb =>
    split
    · next hx => rw [hx, hb]; exact Memory.read_below h
    · rfl
  · rfl

/-- Reading after a write of one byte. -/
theorem Memory.read_write {m : Memory} (hm : Memory.wf m = true) (a : Nat) (b : Byte) (x : Nat) :
    Memory.read (Memory.write m a b) x = if x = a then b else Memory.read m x := by
  induction m with
  | nil => exact Memory.read_cons' (by simp) b x
  | cons c m ih =>
    obtain ⟨-, -, h3, h4⟩ := (Memory.wf_cons c m).1 hm
    simp only [Memory.write]
    split
    · next hlt =>
      refine Memory.read_cons' (fun d hd => ?_) b x
      rcases List.mem_cons.1 hd with rfl | hd
      · exact hlt
      · exact lt_trans hlt (h3 d hd)
    · split
      · next he =>
        rw [Memory.read_cons' (fun d hd => he ▸ h3 d hd), Memory.read_cons]
        by_cases hx : x = a
        · simp [hx]
        · simp [hx, he ▸ hx]
      · next he =>
        rw [Memory.read_cons, Memory.read_cons, ih h4]
        by_cases hx : x = c.1
        · have : ¬ x = a := fun e => he (e ▸ hx)
          simp [hx, hx ▸ this]
        · simp [hx]

theorem Memory.mem_cons' {m : Memory} {a : Nat} {b : Byte} {d : Host.Cell} (h : d ∈ Memory.cons a b m) :
    d.1 = a ∨ d ∈ m := by
  unfold Memory.cons at h
  split at h
  · exact .inr h
  · rcases List.mem_cons.1 h with rfl | h
    · exact .inl rfl
    · exact .inr h

theorem Memory.mem_write {m : Memory} {a : Nat} {b : Byte} {d : Host.Cell} (h : d ∈ Memory.write m a b) :
    d.1 = a ∨ d ∈ m := by
  induction m with
  | nil => exact Memory.mem_cons' h
  | cons c m ih =>
    simp only [Memory.write] at h
    split at h
    · exact Memory.mem_cons' h
    · split at h
      · rcases Memory.mem_cons' h with h | h
        · exact .inl h
        · exact .inr (by simp [h])
      · rcases List.mem_cons.1 h with rfl | h
        · exact .inr (by simp)
        · rcases ih h with h | h
          · exact .inl h
          · exact .inr (by simp [h])

theorem Memory.cons_wf {m : Memory} (hm : Memory.wf m = true) {a : Nat} (ha : a < 4096) (h : ∀ d ∈ m, a < d.1)
    (b : Byte) : Memory.wf (Memory.cons a b m) = true := by
  unfold Memory.cons
  split
  · exact hm
  · next hb => exact (Memory.wf_cons _ _).2 ⟨ha, hb, h, hm⟩

/-- A write inside the memory keeps the canonical form. -/
theorem Memory.write_wf {m : Memory} (hm : Memory.wf m = true) {a : Nat} (ha : a < 4096) (b : Byte) :
    Memory.wf (Memory.write m a b) = true := by
  induction m with
  | nil => exact Memory.cons_wf hm ha (by simp) b
  | cons c m ih =>
    obtain ⟨h1, h2, h3, h4⟩ := (Memory.wf_cons c m).1 hm
    simp only [Memory.write]
    split
    · next hlt =>
      refine Memory.cons_wf hm ha (fun d hd => ?_) b
      rcases List.mem_cons.1 hd with rfl | hd
      · exact hlt
      · exact lt_trans hlt (h3 d hd)
    · split
      · next he => exact Memory.cons_wf h4 ha (fun d hd => he ▸ h3 d hd) b
      · next hlt he =>
        refine (Memory.wf_cons _ _).2 ⟨h1, h2, fun d hd => ?_, ih h4⟩
        rcases Memory.mem_write hd with h | h
        · omega
        · exact h3 d h

theorem Memory.writeBytes_wf {m : Memory} (hm : Memory.wf m = true) {a : Nat} {bs : List Byte}
    (h : bs = [] ∨ a + bs.length ≤ 4096) : Memory.wf (Memory.writeBytes m a bs) = true := by
  induction bs generalizing m a with
  | nil => exact hm
  | cons b bs ih =>
    simp only [reduceCtorEq, List.length_cons, false_or] at h
    exact ih (Memory.write_wf hm (by omega) b) (.inr (by omega))

/-- Reading after a write of several bytes that lie in memory. -/
theorem Memory.read_writeBytes {m : Memory} (hm : Memory.wf m = true) {a : Nat} {bs : List Byte}
    (h : bs = [] ∨ a + bs.length ≤ 4096) (x : Nat) :
    Memory.read (Memory.writeBytes m a bs) x =
      if a ≤ x ∧ x < a + bs.length then bs.getD (x - a) 0#8 else Memory.read m x := by
  induction bs generalizing m a with
  | nil => simp [Memory.writeBytes]
  | cons b bs ih =>
    simp only [reduceCtorEq, List.length_cons, false_or] at h
    rw [Memory.writeBytes, ih (Memory.write_wf hm (by omega) b) (.inr (by omega)), Memory.read_write hm]
    by_cases hx : x = a
    · subst hx; simp
    · by_cases hlt : a + 1 ≤ x ∧ x < a + 1 + bs.length
      · obtain ⟨k, rfl⟩ : ∃ k, x = a + k + 1 := ⟨x - a - 1, by omega⟩
        rw [if_pos hlt, if_pos (by simp; omega), show a + k + 1 - (a + 1) = k by omega,
          show a + k + 1 - a = k + 1 by omega, List.getD_cons_succ]
      · rw [if_neg hlt, if_neg hx, if_neg (by simp; omega)]

/-- Two canonical memories that read alike everywhere are one list. -/
theorem Memory.ext {m k : Memory} (hm : Memory.wf m = true) (hk : Memory.wf k = true)
    (h : ∀ a, Memory.read m a = Memory.read k a) : m = k := by
  induction m generalizing k with
  | nil =>
    cases k with
    | nil => rfl
    | cons d k =>
      obtain ⟨-, h2, -, -⟩ := (Memory.wf_cons d k).1 hk
      exact absurd (by simpa [Memory.read_cons] using (h d.1).symm) h2
  | cons c m ih =>
    obtain ⟨-, c2, c3, c4⟩ := (Memory.wf_cons c m).1 hm
    cases k with
    | nil => exact absurd (by simpa [Memory.read_cons] using h c.1) c2
    | cons d k =>
      obtain ⟨-, d2, d3, d4⟩ := (Memory.wf_cons d k).1 hk
      have below : ∀ (e : Host.Cell) (l : Memory), (∀ f ∈ l, e.1 < f.1) → ∀ {a}, a < e.1 →
          Memory.read (e :: l) a = resetByte a := fun e l hl a ha =>
        Memory.read_below fun f hf => by
          rcases List.mem_cons.1 hf with rfl | hf
          · exact ha
          · exact lt_trans ha (hl f hf)
      have hcd : c.1 = d.1 := by
        rcases lt_trichotomy c.1 d.1 with hlt | he | hlt
        · exact absurd (by simpa [Memory.read_cons, below d k d3 hlt] using h c.1) c2
        · exact he
        · exact absurd (by simpa [Memory.read_cons, below c m c3 hlt] using (h d.1).symm) d2
      have hval : c.2 = d.2 := by simpa [Memory.read_cons, hcd] using h c.1
      rw [Prod.ext hcd hval]
      congr 1
      refine ih c4 d4 fun a => ?_
      by_cases ha : a = c.1
      · rw [ha, Memory.read_below c3, Memory.read_below (hcd ▸ d3)]
      · simpa [Memory.read_cons, ha, hcd ▸ ha] using h a

/-! ## Bounds -/

@[simp] theorem inMemory_iff (a : Nat) : inMemory a = true ↔ a < 4096 := by simp [inMemory]; omega

/-- The check of a multi-byte access passes exactly when no byte is accessed or the last one is in memory. -/
theorem rangeInMemory_iff (base len : Nat) : rangeInMemory base len = true ↔ len = 0 ∨ base + len ≤ 4096 := by
  simp only [rangeInMemory, List.all_eq_true, List.mem_range, inMemory_iff]
  constructor
  · intro h
    rcases Nat.eq_zero_or_pos len with h0 | h0
    · exact .inl h0
    · have := h (len - 1) (by omega); omega
  · rintro h j hj; omega

/-! ## Stores of the machine -/

theorem State.byteAt_storeBytes {s : State} (hm : Memory.wf s.mem = true) {a : Nat} {bs : List Byte}
    (h : bs = [] ∨ a + bs.length ≤ 4096) (x : Nat) :
    (s.storeBytes a bs).byteAt x = if a ≤ x ∧ x < a + bs.length then bs.getD (x - a) 0#8 else s.byteAt x :=
  Memory.read_writeBytes hm h x

/-- A store changes no part but the bytes stored. -/
theorem State.storeBytes_onlyChanges {s : State} (hm : Memory.wf s.mem = true) {a : Nat} {bs : List Byte}
    (h : bs = [] ∨ a + bs.length ≤ 4096) :
    OnlyChanges s (s.storeBytes a bs) fun p => ∃ j, j < bs.length ∧ p = .mem (a + j) := fun p hp => by
  cases p with
  | mem c =>
    have hc : ¬ (a ≤ c ∧ c < a + bs.length) := fun hc => hp ⟨c - a, by omega, by congr; omega⟩
    show ((s.storeBytes a bs).byteAt c).toNat = (s.byteAt c).toNat
    rw [State.byteAt_storeBytes hm h, if_neg hc]
  | _ => exact s.value_storeBytes_other a bs _ (by simp)

end Sys2Proof.Machine
end

