-- ==== Sys2Proof/Laws/Ops.lean ====
section
/-! SUPPORT. One lemma per shared operation: the call stack, the keys, the fetch, the instruction cycle, skips, stores
through `I` and the operand forms. -/

namespace Sys2Proof.Machine

/-! ## The call stack (10_state.md R26) -/

/-- All that a push can do. -/
theorem State.push_eq_some {s t : State} {a : Word} :
    s.push a = some t ↔ ∃ h : s.sp.val < 16,
      t = { s with stack := s.stack.set s.sp.val a, sp := ⟨s.sp.val + 1, by omega⟩ } := by
  unfold State.push
  split <;> simp_all [eq_comm]

theorem State.push_eq_none {s : State} {a : Word} : s.push a = none ↔ s.sp.val = 16 := by
  unfold State.push
  have := s.sp.isLt
  split <;> simp <;> omega

/-- All that a pop can do. -/
theorem State.pop_eq_some {s t : State} {a : Word} :
    s.pop = some (a, t) ↔ ∃ h : 0 < s.sp.val,
      a = s.stack[s.sp.val - 1]'(by omega) ∧ t = { s with sp := ⟨s.sp.val - 1, by omega⟩ } := by
  unfold State.pop
  split <;> simp_all [eq_comm]

theorem State.pop_eq_none {s : State} : s.pop = none ↔ s.sp.val = 0 := by
  unfold State.pop
  split <;> simp <;> omega

theorem State.push_onlyChanges {s t : State} {a : Word} (h : s.push a = some t) :
    OnlyChanges s t fun p => p = .sp ∨ ∃ j : Fin 16, j.val = s.sp.val ∧ p = .stack j := fun p hp => by
  obtain ⟨h16, rfl⟩ := State.push_eq_some.1 h
  cases p with
  | sp => exact absurd (.inl rfl) hp
  | stack j =>
    have : ¬ s.sp.val = j.val := fun e => hp (.inr ⟨j, e.symm, rfl⟩)
    simp [State.value, this]
  | _ => rfl

theorem State.pop_onlyChanges {s t : State} {a : Word} (h : s.pop = some (a, t)) : OnlyChanges s t (· = .sp) :=
  fun p hp => by
    obtain ⟨-, -, rfl⟩ := State.pop_eq_some.1 h
    cases p with
    | sp => exact absurd rfl hp
    | _ => rfl

/-! ## Keys (44_input_timers.md R193) -/

theorem State.leastKey_eq_none {s : State} : s.leastKey = none ↔ ∀ k, s.keyDown k = false := by
  simp [State.leastKey, List.find?_eq_none]

/-- The key a completed wait reports is pressed, and no lower one is. -/
theorem State.leastKey_eq_some {s : State} {k : Key} :
    s.leastKey = some k ↔ s.keyDown k = true ∧ ∀ j, j < k → s.keyDown j = false := by
  unfold State.leastKey
  rw [List.find?_eq_some_iff_getElem]
  simp only [List.getElem_finRange, List.length_finRange, Bool.not_eq_true', Fin.cast_mk]
  constructor
  · rintro ⟨h, i, hi, rfl, hlt⟩
    exact ⟨h, fun j hj => hlt j.val hj⟩
  · rintro ⟨h, hlt⟩
    exact ⟨h, k.val, k.isLt, rfl, fun j hj => hlt ⟨j, by omega⟩ hj⟩

/-! ## Fetch and cycle (40_sequencer.md R100) -/

/-- The fetch: two bytes in memory order, exactly when `pc` is at most 0xFFE. -/
theorem State.fetch_eq (s : State) :
    s.fetch = if s.pc.toNat ≤ 0xFFE then
      some (wordOfBytes (s.byteAt s.pc.toNat) (s.byteAt (s.pc.toNat + 1))) else none := by
  by_cases h : s.pc.toNat ≤ 0xFFE
  · have h1 : inMemory s.pc.toNat = true := (inMemory_iff _).2 (by omega)
    have h2 : inMemory (s.pc.toNat + 1) = true := (inMemory_iff _).2 (by omega)
    simp [State.fetch, State.memRead, State.byteAt, h1, h2, h]
  · have h2 : ¬ inMemory (s.pc.toNat + 1) = true := fun e => h (by have := (inMemory_iff _).1 e; omega)
    simp only [State.fetch, State.memRead, h2, if_neg h]
    split <;> simp_all

theorem State.fetch_eq_none {s : State} : s.fetch = none ↔ 0xFFE < s.pc.toNat := by
  rw [State.fetch_eq]
  split <;> simp <;> omega

/-- All that a cycle can do. -/
theorem State.cycle_cases (run : Instr → State → Result) (s : State) :
    (s.fetch = none ∧ s.cycle run = .fault .outOfBoundsAccess) ∨
    (∃ w e, s.fetch = some w ∧ decode w = .error e ∧ s.cycle run = .fault .unknownOpcode) ∨
    (∃ w i, s.fetch = some w ∧ decode w = .ok i ∧ s.cycle run = run i s.advance) := by
  unfold State.cycle
  cases hf : s.fetch with
  | none => exact .inl ⟨rfl, rfl⟩
  | some w =>
    cases hd : decode w with
    | error e => exact .inr (.inl ⟨w, e, rfl, hd, by simp [hd, raise]⟩)
    | ok i => exact .inr (.inr ⟨w, i, rfl, hd, by simp [hd]⟩)

theorem State.afterError_of_fetch {s : State} {w : Word} (h : s.fetch = some w) : s.afterError = s.advance := by
  simp [State.afterError, h]

theorem State.afterError_of_no_fetch {s : State} (h : s.fetch = none) : s.afterError = s := by
  simp [State.afterError, h]

/-! ## Operand forms -/

@[simp] theorem addr16_toNat (nnn : Addr) : (addr16 nnn).toNat = nnn.toNat := by
  have := nnn.isLt
  simp [addr16]; omega

@[simp] theorem byte16_toNat (b : Byte) : (byte16 b).toNat = b.toNat := by
  have := b.isLt
  simp [byte16]; omega

@[simp] theorem lowNibble_val (b : Byte) : (lowNibble b).val = b.toNat % 16 := by
  show (b.extractLsb' 0 4).toNat = _
  simp [BitVec.extractLsb'_toNat]

@[simp] theorem glyphAddr_toNat (d : Fin 16) : (glyphAddr d).toNat = 0x050 + 5 * d.val := by
  have := d.isLt
  simp [glyphAddr, fontBase, glyphBytes]; omega

@[simp] theorem decimalDigits_length (b : Byte) : (decimalDigits b).length = 3 := rfl

@[simp] theorem State.firstRegs_length (s : State) (x : Reg) : (s.firstRegs x).length = x.val + 1 := by
  simp [State.firstRegs]

theorem State.firstRegs_getD (s : State) (x r : Reg) (h : r ≤ x) : (s.firstRegs x).getD r.val 0#8 = s.getV r := by
  have : r.val < x.val + 1 := by have : r.val ≤ x.val := h; omega
  simp [State.firstRegs, this, State.getV]

/-- All that a store through `I` can do. -/
theorem State.storeAtI_cases (s : State) (bs : List Byte) :
    ((bs = [] ∨ s.i.toNat + bs.length ≤ 4096) ∧ s.storeAtI bs = .next (s.storeBytes s.i.toNat bs)) ∨
    (bs ≠ [] ∧ 4096 < s.i.toNat + bs.length ∧ s.storeAtI bs = .fault .outOfBoundsAccess) := by
  unfold State.storeAtI
  split
  · next h =>
    rw [rangeInMemory_iff, List.length_eq_zero_iff] at h
    exact .inl ⟨h, rfl⟩
  · next h =>
    rw [rangeInMemory_iff, List.length_eq_zero_iff, not_or] at h
    exact .inr ⟨h.1, by omega, rfl⟩

end Sys2Proof.Machine
end

