-- ==== Sys2Proof/Laws/Display.lean ====
section
/-! SUPPORT. The draw unit: pixels after a write, which pixels a sprite touches, and what a blit does. -/

namespace Sys2Proof.Machine

/-- Reading a pixel after a write of one. -/
theorem FrameBuffer.read_write (fb : FrameBuffer) (x px : Fin 64) (y py : Fin 32) (b : Bool) :
    FrameBuffer.read (FrameBuffer.write fb x y b) px py = if px = x ∧ py = y then b else FrameBuffer.read fb px py := by
  unfold FrameBuffer.read FrameBuffer.write
  by_cases hy : py = y
  · subst hy
    by_cases hx : px = x
    · subst hx; simp
    · have : ¬ x.val = px.val := fun e => hx (Fin.ext e.symm)
      simp [hx, this]
  · have : ¬ y.val = py.val := fun e => hy (Fin.ext e.symm)
    simp [hy, this]

@[simp] theorem FrameBuffer.read_dark (x : Fin 64) (y : Fin 32) : FrameBuffer.read FrameBuffer.dark x y = false := by
  simp [FrameBuffer.read, FrameBuffer.dark]

/-- What a blit of distinct pixels does to every pixel, and the collision it reports. -/
theorem blit_spec (fb : FrameBuffer) (c : Bool) {ps : List (Fin 64 × Fin 32)} (h : ps.Nodup) :
    (∀ x y, FrameBuffer.read (blit fb c ps).1 x y = (FrameBuffer.read fb x y ^^ decide ((x, y) ∈ ps))) ∧
    (blit fb c ps).2 = (c || ps.any fun p => FrameBuffer.read fb p.1 p.2) := by
  induction ps generalizing fb c with
  | nil => simp [blit]
  | cons p ps ih =>
    obtain ⟨hp, hps⟩ := List.nodup_cons.1 h
    obtain ⟨ih1, ih2⟩ := ih (FrameBuffer.write fb p.1 p.2 (!(FrameBuffer.read fb p.1 p.2)))
      (c || FrameBuffer.read fb p.1 p.2) hps
    constructor
    · intro x y
      rw [blit, ih1, FrameBuffer.read_write]
      by_cases he : (x, y) = p
      · subst he; simp [hp]
      · have : ¬ (x = p.1 ∧ y = p.2) := fun ⟨a, b⟩ => he (Prod.ext a b)
        simp [this, he]
    · rw [blit, ih2, List.any_cons, Bool.or_assoc]
      congr 2
      rw [Bool.eq_iff_iff, List.any_eq_true, List.any_eq_true]
      refine exists_congr fun q => and_congr_right fun hq => ?_
      have : ¬ (q.1 = p.1 ∧ q.2 = p.2) := fun ⟨a, b⟩ => hp (Prod.ext a b ▸ hq)
      rw [FrameBuffer.read_write, if_neg this]

/-- The pixels of one row: the 1 bits, from the most significant on. -/
theorem mem_rowPixels {ox y : Nat} {row : Byte} {p : Fin 64 × Fin 32} :
    p ∈ rowPixels ox y row ↔ ∃ b, b < 8 ∧ row.getLsbD (7 - b) = true ∧ p = pixelAt (ox + b) y := by
  simp only [rowPixels, List.mem_map, List.mem_filter, List.mem_range]
  constructor
  · rintro ⟨b, ⟨h1, h2⟩, rfl⟩; exact ⟨b, h1, h2, rfl⟩
  · rintro ⟨b, h1, h2, rfl⟩; exact ⟨b, ⟨h1, h2⟩, rfl⟩

theorem rowPixels_nodup (ox y : Nat) (row : Byte) : (rowPixels ox y row).Nodup := by
  refine List.Nodup.map_on ?_ (List.nodup_range.filter _)
  intro a ha b hb hab
  simp only [List.mem_filter, List.mem_range] at ha hb
  have := congrArg (fun p : Fin 64 × Fin 32 => p.1.val) hab
  simp [pixelAt] at this
  omega

/-- The pixels of a sprite, row by row. -/
theorem mem_spritePixels {ox oy : Nat} {rows : List Byte} {p : Fin 64 × Fin 32} :
    p ∈ spritePixels ox oy rows ↔
      ∃ r b, r < rows.length ∧ b < 8 ∧ (rows.getD r 0#8).getLsbD (7 - b) = true ∧ p = pixelAt (ox + b) (oy + r) := by
  induction rows generalizing oy with
  | nil => simp [spritePixels]
  | cons row rows ih =>
    rw [spritePixels, List.mem_append, mem_rowPixels, ih]
    constructor
    · rintro (⟨b, h1, h2, h3⟩ | ⟨r, b, h1, h2, h3, h4⟩)
      · exact ⟨0, b, by simp, h1, by simpa using h2, by simpa using h3⟩
      · exact ⟨r + 1, b, by simpa using h1, h2, by simpa using h3, by rw [h4]; congr 1; omega⟩
    · rintro ⟨r, b, h1, h2, h3, h4⟩
      cases r with
      | zero => exact .inl ⟨b, h2, by simpa using h3, by simpa using h4⟩
      | succ r => exact .inr ⟨r, b, by simpa using h1, h2, by simpa using h3, by rw [h4]; congr 1; omega⟩

/-- Within one draw no pixel is hit twice (43_display.md R172). -/
theorem spritePixels_nodup {ox oy : Nat} {rows : List Byte} (h : rows.length ≤ 32) :
    (spritePixels ox oy rows).Nodup := by
  induction rows generalizing oy with
  | nil => simp [spritePixels]
  | cons row rows ih =>
    rw [List.length_cons] at h
    refine List.Nodup.append (rowPixels_nodup ox oy row) (ih (by omega)) ?_
    intro p hp hq
    obtain ⟨b, -, -, rfl⟩ := mem_rowPixels.1 hp
    obtain ⟨r, b', hr, -, -, he⟩ := mem_spritePixels.1 hq
    have := congrArg (fun p : Fin 64 × Fin 32 => p.2.val) he
    simp [pixelAt] at this
    omega

/-- The pixels of the sprite of a draw are those the spec says it covers. -/
theorem State.mem_sprite_iff (s : State) (x y : Reg) (n : Nat) (px : Fin 64) (py : Fin 32) :
    (px, py) ∈ spritePixels (s.spriteOrigin x y).1 (s.spriteOrigin x y).2 (s.spriteRows n) ↔
      s.spriteCovers x y n px py := by
  rw [mem_spritePixels]
  unfold State.spriteCovers
  refine exists_congr fun r => exists_congr fun b => ?_
  have hlen : (s.spriteRows n).length = n := by simp [State.spriteRows]
  rw [hlen]
  refine and_congr_right fun hr => and_congr_right fun _ => ?_
  have hget : (s.spriteRows n).getD r 0#8 = s.byteAt (s.i.toNat + r) := by
    simp [State.spriteRows, hr]
  rw [hget]
  refine and_congr_right fun _ => ?_
  simp [pixelAt, State.spriteOrigin, Fin.ext_iff]

end Sys2Proof.Machine
end

