-- ==== Sys2Proof/Laws/PerInstr.lean ====
section
/-! SUPPORT. Statements for all instructions, one lemma per instruction. -/

/-! ## The round trip: decoding the word of a well-formed instruction gives the instruction back -/

namespace Sys2Proof.Laws.DecodeEncode

/-- The word of `i` decodes to `i`, if `i` is well formed. -/
def Statement (i : Instr) : Prop := i.wellFormed = true → decode (encode i) = .ok i

theorem cls : Statement .cls := fun _ => by decide
theorem ret : Statement .ret := fun _ => by decide
theorem jp (nnn : Addr) : Statement (.jp nnn) := fun _ => by simp [decode, encode]
theorem call (nnn : Addr) : Statement (.call nnn) := fun _ => by simp [decode, encode]
theorem seImm (x : Reg) (kk : Byte) : Statement (.seImm x kk) := fun _ => by simp [decode, encode]
theorem sneImm (x : Reg) (kk : Byte) : Statement (.sneImm x kk) := fun _ => by simp [decode, encode]
theorem seReg (x y : Reg) : Statement (.seReg x y) := fun _ => by simp [decode, encode]
theorem ldImm (x : Reg) (kk : Byte) : Statement (.ldImm x kk) := fun _ => by simp [decode, encode]
theorem addImm (x : Reg) (kk : Byte) : Statement (.addImm x kk) := fun _ => by simp [decode, encode]
theorem ldReg (x y : Reg) : Statement (.ldReg x y) := fun _ => by simp [decode, encode]
theorem orReg (x y : Reg) : Statement (.orReg x y) := fun _ => by simp [decode, encode]
theorem andReg (x y : Reg) : Statement (.andReg x y) := fun _ => by simp [decode, encode]
theorem xorReg (x y : Reg) : Statement (.xorReg x y) := fun _ => by simp [decode, encode]
theorem addReg (x y : Reg) : Statement (.addReg x y) := fun _ => by simp [decode, encode]
theorem subReg (x y : Reg) : Statement (.subReg x y) := fun _ => by simp [decode, encode]
theorem shr (x y : Reg) : Statement (.shr x y) := fun _ => by simp [decode, encode]
theorem subnReg (x y : Reg) : Statement (.subnReg x y) := fun _ => by simp [decode, encode]
theorem shl (x y : Reg) : Statement (.shl x y) := fun _ => by simp [decode, encode]
theorem sneReg (x y : Reg) : Statement (.sneReg x y) := fun _ => by simp [decode, encode]
theorem ldI (nnn : Addr) : Statement (.ldI nnn) := fun _ => by simp [decode, encode]
theorem jpV0 (nnn : Addr) : Statement (.jpV0 nnn) := fun _ => by simp [decode, encode]
theorem rnd (x : Reg) (kk : Byte) : Statement (.rnd x kk) := fun _ => by simp [decode, encode]
theorem drw (x y : Reg) (n : Nat) : Statement (.drw x y n) := fun h => by
  have : n ≤ 15 := by simpa [Instr.wellFormed] using h
  simp [decode, encode]; omega
theorem skp (x : Reg) : Statement (.skp x) := fun _ => by simp [decode, encode]
theorem sknp (x : Reg) : Statement (.sknp x) := fun _ => by simp [decode, encode]
theorem ldVxDT (x : Reg) : Statement (.ldVxDT x) := fun _ => by simp [decode, encode]
theorem ldVxK (x : Reg) : Statement (.ldVxK x) := fun _ => by simp [decode, encode]
theorem ldDTVx (x : Reg) : Statement (.ldDTVx x) := fun _ => by simp [decode, encode]
theorem ldSTVx (x : Reg) : Statement (.ldSTVx x) := fun _ => by simp [decode, encode]
theorem addI (x : Reg) : Statement (.addI x) := fun _ => by simp [decode, encode]
theorem ldF (x : Reg) : Statement (.ldF x) := fun _ => by simp [decode, encode]
theorem ldB (x : Reg) : Statement (.ldB x) := fun _ => by simp [decode, encode]
theorem ldMemVx (x : Reg) : Statement (.ldMemVx x) := fun _ => by simp [decode, encode]
theorem ldVxMem (x : Reg) : Statement (.ldVxMem x) := fun _ => by simp [decode, encode]

end Sys2Proof.Laws.DecodeEncode
end

