-- ==== Sys2Proof/Tests/Slice0.lean ====
section
/-! SUPPORT. The model's own tests. Every expected value is a vector of 95_test_vectors.md (its id stands in the test's
comment), a worked example of a rule, or hand calculation from a rule. -/

namespace Sys2Proof.Tests

open Sys2Proof.Machine

/-- What a step leaves in some parts; none where it does not answer a next state. -/
def observe (r : Result) (ps : List Part) : Option (List Nat) :=
  match r with
  | .next t => some (ps.map t.value)
  | .fault _ => none
  | .refused _ => none

/-- The fault of a step; none where it does not fault. -/
def faultOf (r : Result) : Option Fault :=
  match r with
  | .next _ => none
  | .fault e => some e
  | .refused _ => none

/-- One step on a word placed where the next fetch reads it. -/
def runWord (s : State) (w : Nat) : Result := step (s.withFetchWord 16 w)

/-- The reset state with some data registers set. -/
def withRegs (rs : List (Reg × Byte)) : State := rs.foldl (fun s r => s.setV r.1 r.2) State.reset

/-- The reset state with `I` and some data registers set. -/
def withI (a : Word) (rs : List (Reg × Byte)) : State := (withRegs rs).setI a

/-! ## Well-formedness: the ill-formed term of the one check -/

theorem test_wellFormed_refuses_sixteen_rows : (Instr.drw 0 1 16).wellFormed = false := by decide
theorem test_wellFormed_accepts_fifteen_rows : (Instr.drw 0 1 15).wellFormed = true := by decide

/-! ## Decode: one word of every instruction, written out from 30_encoding.md R75 and R76 -/

theorem test_decode_control_flow :
    [0x00EE#16, 0x1228#16, 0x2300#16, 0xB3FF#16, 0x3A02#16, 0x4001#16, 0x5120#16, 0x9120#16].map decode =
    [.ok .ret, .ok (.jp 0x228#12), .ok (.call 0x300#12), .ok (.jpV0 0x3FF#12), .ok (.seImm 0xA 0x02#8),
     .ok (.sneImm 0x0 0x01#8), .ok (.seReg 1 2), .ok (.sneReg 1 2)] := by decide

theorem test_decode_register_alu :
    [0x6A02#16, 0x7305#16, 0x8120#16, 0x8121#16, 0x8122#16, 0x8123#16, 0x8124#16, 0x8125#16, 0x8126#16, 0x8127#16,
     0x812E#16, 0xC30F#16].map decode =
    [.ok (.ldImm 0xA 0x02#8), .ok (.addImm 3 0x05#8), .ok (.ldReg 1 2), .ok (.orReg 1 2), .ok (.andReg 1 2),
     .ok (.xorReg 1 2), .ok (.addReg 1 2), .ok (.subReg 1 2), .ok (.shr 1 2), .ok (.subnReg 1 2), .ok (.shl 1 2),
     .ok (.rnd 3 0x0F#8)] := by decide

theorem test_decode_display :
    [0x00E0#16, 0xD015#16, 0xDF1F#16].map decode = [.ok .cls, .ok (.drw 0 1 5), .ok (.drw 0xF 1 15)] := by decide

theorem test_decode_input_timers :
    [0xE29E#16, 0xE2A1#16, 0xF507#16, 0xF30A#16, 0xF515#16, 0xF018#16].map decode =
    [.ok (.skp 2), .ok (.sknp 2), .ok (.ldVxDT 5), .ok (.ldVxK 3), .ok (.ldDTVx 5), .ok (.ldSTVx 0)] := by decide

theorem test_decode_index_memory :
    [0xA050#16, 0xF21E#16, 0xF129#16, 0xF333#16, 0xF255#16, 0xFF65#16].map decode =
    [.ok (.ldI 0x050#12), .ok (.addI 2), .ok (.ldF 1), .ok (.ldB 3), .ok (.ldMemVx 2), .ok (.ldVxMem 0xF)] := by
  decide

/-- The illegal words of the decoder vectors of 95_test_vectors.md, each rejected by the name of its line of R78. -/
theorem test_decode_rejects_by_name :
    [0x0000#16, 0x0123#16, 0x00E1#16, 0x00EF#16, 0x5121#16, 0x8008#16, 0x800F#16, 0x9121#16, 0xE09F#16, 0xF008#16,
     0xF030#16, 0xFFFF#16].map decode =
    [.error .machineCall, .error .machineCall, .error .machineCall, .error .machineCall, .error .seRegTail,
     .error .aluTail, .error .aluTail, .error .sneRegTail, .error .keyFunction, .error .fxFunction,
     .error .fxFunction, .error .fxFunction] := by decide

theorem test_decodeBytes_is_big_endian_and_keeps_the_rest :
    decodeBytes [0x6A#8, 0x02#8, 0xA0#8] = .ok (.ldImm 0xA 0x02#8, [0xA0#8]) := by decide
theorem test_decodeBytes_of_one_byte : decodeBytes [0x6A#8] = .error .truncated := by decide
theorem test_decodeTableWord : decodeTableWord 16 0x6A02 = some (.ldImm 0xA 0x02#8) := by decide

/-! ## The sequencer -/

/-- S1: a fetch at 0xFFF. -/
theorem test_fetch_past_the_top : faultOf (step (State.reset.setPc 0xFFF#16)) = some .outOfBoundsAccess := by decide
/-- S2: a fetch of the last two bytes. -/
theorem test_fetch_at_the_top : observe (runWord (State.reset.setPc 0xFFE#16) 0x1200) [.pc] = some [0x200] := by decide
/-- S4: an odd `pc`. -/
theorem test_fetch_odd : observe (runWord (State.reset.setPc 0x201#16) 0x6A07) [.v 0xA, .pc] = some [7, 0x203] := by
  decide
/-- S5, E8: `FFFF` fails and `pc` has advanced. -/
theorem test_unknown_opcode :
    ((State.reset.withFetchWord 16 0xFFFF).executeInstruction 0#8).1 = .unknownOpcode ∧
    ((State.reset.withFetchWord 16 0xFFFF).executeInstruction 0#8).2.pc = 0x202#16 := by decide
/-- S8, second step: a word stored over the next instruction is the word fetched. -/
theorem test_store_is_fetched :
    observe (step ((State.reset.setPc 0x202#16).storeBytes 0x202 [0x12#8, 0x34#8])) [.pc] = some [0x234] := by decide
/-- D13, P1: the first step from reset with nothing loaded fetches `0000`. -/
theorem test_empty_memory_is_illegal : faultOf (step State.reset) = some .unknownOpcode := by decide

/-! ## Control flow -/

/-- T1. -/
theorem test_ret : observe (runWord ({ State.reset with sp := 1 }.setPc 0x300#16) 0x00EE) [.pc, .sp] = some [0, 0] := by
  decide
/-- T2. -/
theorem test_ret_underflow : faultOf (runWord State.reset 0x00EE) = some .stackUnderflow := by decide
/-- T4. -/
theorem test_jp : observe (runWord State.reset 0x1228) [.pc] = some [0x228] := by decide
/-- T8. -/
theorem test_call : observe (runWord { State.reset with sp := 15 } 0x2300) [.pc, .sp, .stack 15] =
    some [0x300, 16, 0x202] := by decide
/-- T9. -/
theorem test_call_overflow : faultOf (runWord { State.reset with sp := 16 } 0x2300) = some .stackOverflow := by decide
/-- T12. -/
theorem test_jpV0 : observe (runWord (withRegs [(0, 0xFF#8)]) 0xBFFF) [.pc] = some [0x10FE] := by decide
/-- T14. -/
theorem test_seImm : observe (runWord (withRegs [(0xA, 2#8)]) 0x3A02) [.pc] = some [0x204] := by decide
/-- T15. -/
theorem test_seImm_not : observe (runWord (withRegs [(0xA, 3#8)]) 0x3A02) [.pc] = some [0x202] := by decide
/-- T16. -/
theorem test_sneImm : observe (runWord State.reset 0x4001) [.pc] = some [0x204] := by decide
/-- T18. -/
theorem test_seReg : observe (runWord (withRegs [(1, 0x7F#8), (2, 0x7F#8)]) 0x5120) [.pc] = some [0x204] := by decide
/-- T21. -/
theorem test_sneReg : observe (runWord (withRegs [(1, 1#8), (2, 2#8)]) 0x9120) [.pc] = some [0x204] := by decide
/-- T22. -/
theorem test_sneReg_same : observe (runWord (withRegs [(1, 0x42#8)]) 0x9110) [.pc] = some [0x202] := by decide
/-- T23. -/
theorem test_skip_past_the_top : observe (runWord (State.reset.setPc 0xFFE#16) 0x3000) [.pc] = some [0x1002] := by decide

/-! ## Registers -/

/-- A1. -/
theorem test_ldImm : observe (runWord State.reset 0x6A02) [.v 0xA, .pc] = some [2, 0x202] := by decide
/-- A4. -/
theorem test_addImm : observe (runWord (withRegs [(3, 0xFF#8), (0xF, 0x55#8)]) 0x7301) [.v 3, .v 0xF] =
    some [0, 0x55] := by decide
/-- A5. -/
theorem test_addImm_flag_as_destination : observe (runWord (withRegs [(0xF, 0xFF#8)]) 0x7F01) [.v 0xF] = some [0] := by
  decide
/-- A6. -/
theorem test_ldReg : observe (runWord (withRegs [(2, 0x33#8)]) 0x8120) [.v 1] = some [0x33] := by decide
/-- A7. -/
theorem test_or : observe (runWord (withRegs [(1, 0x0F#8), (2, 0xF0#8), (0xF, 0x77#8)]) 0x8121) [.v 1, .v 0xF] =
    some [0xFF, 0x77] := by decide
/-- A8. -/
theorem test_and : observe (runWord (withRegs [(1, 0x3C#8), (2, 0x0F#8)]) 0x8122) [.v 1] = some [0x0C] := by decide
/-- A9. -/
theorem test_xor : observe (runWord (withRegs [(1, 0xFF#8), (2, 0x0F#8)]) 0x8123) [.v 1] = some [0xF0] := by decide
/-- A15. -/
theorem test_addReg_flag_stays : observe (runWord (withRegs [(0xF, 0x10#8), (1, 0xF5#8)]) 0x8F14) [.v 0xF] = some [1] := by
  decide
/-- A16. -/
theorem test_addReg_flag_is_addend : observe (runWord (withRegs [(1, 0x10#8), (0xF, 1#8)]) 0x81F4) [.v 1, .v 0xF] =
    some [0x11, 0] := by decide
/-- A18. -/
theorem test_sub_borrow : observe (runWord (withRegs [(1, 3#8), (2, 5#8)]) 0x8125) [.v 1, .v 0xF] = some [0xFE, 0] := by
  decide
/-- A19. -/
theorem test_sub_equal : observe (runWord (withRegs [(1, 0x44#8), (2, 0x44#8)]) 0x8125) [.v 1, .v 0xF] = some [0, 1] := by
  decide
/-- A21. -/
theorem test_subn : observe (runWord (withRegs [(1, 3#8), (2, 5#8)]) 0x8127) [.v 1, .v 0xF] = some [2, 1] := by decide
/-- A22. -/
theorem test_subn_borrow : observe (runWord (withRegs [(1, 5#8), (2, 3#8)]) 0x8127) [.v 1, .v 0xF] = some [0xFE, 0] := by
  decide
/-- A25. -/
theorem test_shr_zero_fill : observe (runWord (withRegs [(1, 0x80#8)]) 0x8106) [.v 1, .v 0xF] = some [0x40, 0] := by decide
/-- A27. -/
theorem test_shr_ignores_y : observe (runWord (withRegs [(1, 4#8), (2, 0xFF#8)]) 0x8126) [.v 1, .v 2, .v 0xF] =
    some [2, 0xFF, 0] := by decide
/-- A29. -/
theorem test_shl : observe (runWord (withRegs [(1, 0x81#8)]) 0x810E) [.v 1, .v 0xF] = some [2, 1] := by decide
/-- A32. -/
theorem test_shl_flag : observe (runWord (withRegs [(0xF, 0x80#8)]) 0x8F0E) [.v 0xF] = some [1] := by decide
/-- A33. -/
theorem test_rnd : ((State.reset.withFetchWord 16 0xC30F).executeInstruction 0xA5#8).2.value (.v 3) = 5 := by decide
/-- A34, at the step, whatever the draw: `kk` 0 gives 0. -/
theorem test_rnd_counts_a_draw : observe (runWord State.reset 0xC300) [.pc, .draws] = some [0x202, 1] := by decide

/-! ## Display -/

/-- D1: one lit pixel for all. -/
theorem test_cls : observe (runWord ((withRegs [(0xF, 7#8)]).setFB (FrameBuffer.write FrameBuffer.dark 5 6 true)) 0x00E0)
    [.pixel 5 6, .v 0xF] = some [0, 7] := by decide
/-- D4: a row that wraps at the right edge. -/
theorem test_drw_wraps : observe (runWord ((withI 0x300#16 [(0, 62#8)]).storeBytes 0x300 [0xFF#8]) 0xD011)
    [.pixel 61 0, .pixel 62 0, .pixel 63 0, .pixel 0 0, .pixel 5 0, .pixel 6 0, .v 0xF] =
    some [0, 1, 1, 1, 1, 0, 0] := by decide
/-- D12: the origin is read from the old `VF`. -/
theorem test_drw_origin_from_flag : observe (runWord ((withI 0x300#16 [(0xF, 0x0A#8)]).storeBytes 0x300 [0x80#8]) 0xDF11)
    [.pixel 10 0, .pixel 0 0, .v 0xF] = some [1, 0, 0] := by decide
/-- D10. -/
theorem test_drw_out_of_bounds : faultOf (runWord (withI 0xFFF#16 []) 0xD012) = some .outOfBoundsAccess := by decide
/-- D9. -/
theorem test_drw_no_rows : observe (runWord (withI 0x1000#16 [(0xF, 5#8)]) 0xD010) [.v 0xF] = some [0] := by decide

/-! ## Keys and timers -/

/-- K3. -/
theorem test_skp_low_nibble : observe (runWord ((withRegs [(2, 0x1A#8)]).setKey 0xA true) 0xE29E) [.pc] = some [0x204] := by
  decide
/-- K2. -/
theorem test_skp_released : observe (runWord (withRegs [(2, 5#8)]) 0xE29E) [.pc] = some [0x202] := by decide
/-- K4. -/
theorem test_sknp : observe (runWord (withRegs [(2, 5#8)]) 0xE2A1) [.pc] = some [0x204] := by decide
/-- K6. -/
theorem test_key_wait_parks : observe (runWord (withRegs [(3, 0x99#8)]) 0xF30A) [.pc, .v 3] = some [0x200, 0x99] := by
  decide
/-- K8. -/
theorem test_key_wait_least : observe (runWord ((State.reset.setKey 9 true).setKey 2 true) 0xF30A) [.v 3, .pc] =
    some [2, 0x202] := by decide
/-- K10. -/
theorem test_ldVxDT : observe (runWord (State.reset.setDT 0x3C#8) 0xF507) [.v 5, .dt] = some [0x3C, 0x3C] := by decide
/-- K11. -/
theorem test_ldDTVx : observe (runWord (withRegs [(5, 0x3C#8)]) 0xF515) [.dt, .st] = some [0x3C, 0] := by decide
/-- K13. -/
theorem test_ldSTVx : observe (runWord (withRegs [(0, 2#8)]) 0xF018) [.st, .dt] = some [2, 0] := by decide

/-! ## Index register and memory -/

/-- X1. -/
theorem test_ldI : observe (runWord State.reset 0xA050) [.i] = some [0x050] := by decide
/-- X5. -/
theorem test_addI_wraps : observe (runWord (withI 0xFFFF#16 [(2, 1#8), (0xF, 7#8)]) 0xF21E) [.i, .v 0xF] =
    some [0, 7] := by decide
/-- X9. -/
theorem test_ldF_low_nibble : observe (runWord (withRegs [(1, 0x1F#8)]) 0xF129) [.i] = some [0x09B] := by decide
/-- X11. -/
theorem test_ldB : observe (runWord (withI 0x300#16 [(3, 0xFF#8)]) 0xF333) [.mem 0x300, .mem 0x301, .mem 0x302, .i] =
    some [2, 5, 5, 0x300] := by decide
/-- X14. -/
theorem test_ldB_out_of_bounds : faultOf (runWord (withI 0xFFE#16 [(3, 7#8)]) 0xF333) = some .outOfBoundsAccess := by
  decide
/-- X15. -/
theorem test_ldMemVx : observe (runWord (withI 0x300#16 [(0, 1#8), (1, 2#8), (2, 3#8), (3, 4#8)]) 0xF255)
    [.mem 0x300, .mem 0x301, .mem 0x302, .mem 0x303, .i] = some [1, 2, 3, 0, 0x300] := by decide
/-- X17. -/
theorem test_ldMemVx_out_of_bounds : faultOf (runWord (withI 0xFFF#16 []) 0xF155) = some .outOfBoundsAccess := by decide
/-- X23. -/
theorem test_ldVxMem_font : observe (runWord (withI 0x050#16 [(5, 0x77#8)]) 0xF465)
    [.v 0, .v 1, .v 2, .v 3, .v 4, .v 5] = some [0xF0, 0x90, 0x90, 0x90, 0xF0, 0x77] := by decide
/-- X21. -/
theorem test_ldVxMem_out_of_bounds : faultOf (runWord (withI 0x1000#16 []) 0xF065) = some .outOfBoundsAccess := by decide

/-! ## Host transactions -/

/-- H2. -/
theorem test_tickTimers : ((State.reset.setDT 1#8).setST 1#8).tickTimers = State.reset := by decide
/-- H1. -/
theorem test_tickTimers_independent : (State.reset.setDT 5#8).tickTimers = State.reset.setDT 4#8 := by decide
/-- H7. -/
theorem test_setKey_out_of_range : State.reset.setKey 16 true = State.reset := by decide
/-- H11. -/
theorem test_load : (State.load ((withRegs [(5, 9#8)]).setPc 0x456#16) [0x12#8, 0x00#8]).1 = .ok ∧
    ((State.load ((withRegs [(5, 9#8)]).setPc 0x456#16) [0x12#8, 0x00#8]).2).value (.mem 0x200) = 0x12 := by decide
/-- D7, K13: the sound level. -/
theorem test_soundActive : (State.reset.setST 2#8).soundActive = true ∧ State.reset.soundActive = false := by decide
/-- D15, one element of the frame: `y * 64 + x`. -/
theorem test_getDisplay_row_major :
    (State.reset.setFB (FrameBuffer.write FrameBuffer.dark 3 1 true)).getDisplay[67]? = some true := by decide

/-! ## Witnesses: for each obligation with hypotheses, states and operands that meet them, at the bounds of each clause -/

/-- The result of a step is a next state. -/
def completes (r : Result) : Bool := (observe r []).isSome

/-- The reset state with a word at its last two bytes and `pc` there. -/
def atTop (w : Nat) : State := (State.reset.setPc 0xFFE#16).withFetchWord 16 w

/-- The reset state with `n` return addresses on the stack. -/
def deep (n : Fin 17) : State := { State.reset with sp := n, stack := Vector.replicate 16 0x1000#16 }

theorem witness_DecodeOfEncodeGivesInstruction :
    (Instr.drw 0xF 0xF 15).wellFormed = true ∧ (Instr.jp 0xFFF#12).wellFormed = true := by decide
theorem witness_EncodeOfDecodeGivesWord :
    decode 0xDFFF#16 = .ok (.drw 0xF 0xF 15) ∧ decode 0xFF65#16 = .ok (.ldVxMem 0xF) := by decide
theorem witness_OpcodeTableWordsDecode : 0 ≤ 15 ∧ 15 ≤ 15 := by decide
theorem witness_AssemblySpellsOneInstruction :
    (Instr.drw 0 1 15).wellFormed = true ∧ assemble .SHR [.v 3] = some (.shr 3 0) ∧
    assemble .JP [.v 0, .nnn 0x300#12] = some (.jpV0 0x300#12) := by decide
theorem witness_StepRunsTheDecodedInstruction :
    (atTop 0x6A02).pc.toNat ≤ 0xFFE ∧
    (0x6A02#16).toNat = ((atTop 0x6A02).byteAt (atTop 0x6A02).pc.toNat).toNat * 0x100 +
      ((atTop 0x6A02).byteAt ((atTop 0x6A02).pc.toNat + 1)).toNat ∧
    decode 0x6A02#16 = .ok (.ldImm 0xA 0x02#8) := by decide
theorem witness_FetchPastTopLeavesStateUnchanged :
    0xFFF ≤ (State.reset.setPc 0xFFF#16).pc.toNat ∧ 0xFFF ≤ (State.reset.setPc 0x10FE#16).pc.toNat := by decide
theorem witness_UnknownOpcodeOnlyAdvancesPc :
    (atTop 0xFFFF).pc.toNat ≤ 0xFFE ∧
    (0xFFFF#16).toNat = ((atTop 0xFFFF).byteAt (atTop 0xFFFF).pc.toNat).toNat * 0x100 +
      ((atTop 0xFFFF).byteAt ((atTop 0xFFFF).pc.toNat + 1)).toNat ∧
    decode 0xFFFF#16 = .error .fxFunction := by decide
theorem witness_AbortedInstructionsLeaveOnlyPcAdvanced :
    (atTop 0x00EE).pc.toNat ≤ 0xFFE ∧ ((atTop 0x00EE).executeInstruction 0#8).1 = .stackUnderflow ∧
    Status.stackUnderflow ≠ .ok := by decide
theorem witness_InstructionsRaiseOnlyTheirOwnError :
    faultOf (exec (.call 0#12) (deep 16)) = some .stackOverflow ∧ faultOf (exec .ret (deep 0)) = some .stackUnderflow ∧
    faultOf (exec (.drw 0 0 1) (withI 0x1000#16 [])) = some .outOfBoundsAccess ∧
    faultOf (exec (.ldB 0) (withI 0xFFE#16 [])) = some .outOfBoundsAccess ∧
    faultOf (exec (.ldMemVx 1) (withI 0xFFF#16 [])) = some .outOfBoundsAccess ∧
    faultOf (exec (.ldVxMem 1) (withI 0xFFF#16 [])) = some .outOfBoundsAccess := by decide
theorem witness_StepAgreesWithExecuteInstruction :
    completes (step (atTop 0x6A02)) = true ∧ faultOf (step (atTop 0x00EE)) = some .stackUnderflow ∧
    ((atTop 0x6A02).executeInstruction (Config.rnd (atTop 0x6A02).draws)).1 = .ok := ⟨by decide, by decide, rfl⟩
theorem witness_OnlyRndReadsTheRandomInput :
    (atTop 0x6A02).fetched = some (.ldImm 0xA 0x02#8) ∧ ∀ x kk, (atTop 0x6A02).fetched ≠ some (.rnd x kk) :=
  ⟨by decide, fun _ _ h => by rw [show (atTop 0x6A02).fetched = some (.ldImm 0xA 0x02#8) by decide] at h; cases h⟩
theorem witness_ReturnPopsIntoPc :
    (deep 1).sp.val = (0 : Fin 16).val + 1 ∧ (deep 16).sp.val = (15 : Fin 16).val + 1 ∧ (deep 0).sp.val = 0 := by decide
theorem witness_CallPushesAndJumps :
    (deep 0).sp.val = (0 : Fin 16).val ∧ (deep 15).sp.val = (15 : Fin 16).val ∧ (deep 16).sp.val = 16 := by decide
theorem witness_ReturnUndoesCall : (deep 15).sp.val < 16 := by decide
/-- The clause of the destination, and the clause of each value of the flag, of the flag writers. -/
theorem witness_FlagWriters :
    (1 : Reg) ≠ VF ∧ ((withRegs [(1, 0xFF#8), (2, 1#8)]).getV 1).toNat + ((withRegs [(1, 0xFF#8), (2, 1#8)]).getV 2).toNat = 256 ∧
    ((withRegs [(1, 0xFF#8)]).getV 1).toNat + ((withRegs [(1, 0xFF#8)]).getV 2).toNat = 255 := by decide
theorem witness_OnlyFlagWritersChangeFlag :
    observe (exec (.addReg 1 2) (withRegs [(1, 0xFF#8), (2, 1#8)])) [.v VF] = some [1] ∧
    (withRegs [(1, 0xFF#8), (2, 1#8)]).getV VF ≠ 1#8 ∧
    observe (exec (.ldVxMem VF) (withI 0x050#16 [])) [.v VF] = some [0xF0] := by decide
/-- No rows; rows that end at the last byte; rows one past it. -/
theorem witness_DrawFlipsCoveredPixels :
    0 ≤ 15 ∧ (withI 0xFF1#16 []).i.toNat + 15 = 0x1000 ∧ 15 ≠ 0 ∧ 0x1000 < (withI 0xFF2#16 []).i.toNat + 15 := by decide
/-- A covered pixel at the right edge and one wrapped to the left edge, dark and lit. -/
theorem witness_DrawFlipsCoveredPixels_covered :
    (withI 0x050#16 [(0, 63#8)]).spriteCovers 0 1 5 63 0 ∧ (withI 0x050#16 [(0, 63#8)]).spriteCovers 0 1 5 2 0 ∧
    (withI 0x050#16 [(0, 63#8)]).pixel 63 0 = false ∧
    (State.setFB (withI 0x050#16 [(0, 63#8)]) (FrameBuffer.write FrameBuffer.dark 63 0 true)).pixel 63 0 = true :=
  ⟨⟨0, 0, by decide⟩, ⟨0, 3, by decide⟩, by decide, by decide⟩
/-- Two states that differ in a key, a timer and a register the draw does not name. -/
theorem witness_DrawDependsOnlyOnItsInputs :
    15 ≤ 15 ∧ (withI 0x050#16 []).i = (((withI 0x050#16 [(5, 1#8)]).setKey 2 true).setDT 9#8).i ∧
    (withI 0x050#16 []).getV 0 = (((withI 0x050#16 [(5, 1#8)]).setKey 2 true).setDT 9#8).getV 0 ∧
    (withI 0x050#16 []).getV 1 = (((withI 0x050#16 [(5, 1#8)]).setKey 2 true).setDT 9#8).getV 1 ∧
    (∀ px py, (withI 0x050#16 []).pixel px py = (((withI 0x050#16 [(5, 1#8)]).setKey 2 true).setDT 9#8).pixel px py) ∧
    (∀ r, r < 15 → (withI 0x050#16 []).byteAt ((withI 0x050#16 []).i.toNat + r) =
      (((withI 0x050#16 [(5, 1#8)]).setKey 2 true).setDT 9#8).byteAt ((withI 0x050#16 []).i.toNat + r)) :=
  ⟨by decide, by decide, by decide, by decide, fun _ _ => rfl, fun _ _ => rfl⟩
theorem witness_DrawDependsOnlyOnItsInputs_pixels :
    observe (exec (.drw 0 1 1) (withI 0x050#16 [])) [.pixel 0 0] = some [1] ∧ State.reset.pixel 0 0 = false := by decide
theorem witness_DrawingTwiceRestoresPixels :
    1 ≤ 15 ∧ observe (exec (.drw 0 1 1) (withI 0x050#16 [(0, 3#8)])) [.v 0, .v 1] = some [3, 0] ∧
    (withI 0x050#16 [(0, 3#8)]).getV 0 = 3#8 ∧ (withI 0x050#16 [(0, 3#8)]).getV 1 = 0#8 := by decide
theorem witness_KeySkipsTestTheLowNibble :
    (0xF : Key).val = ((withRegs [(2, 0xFF#8)]).getV 2).toNat % 16 ∧ ((withRegs [(2, 0xFF#8)]).setKey 15 true).keyDown 0xF = true ∧
    (withRegs [(2, 0xFF#8)]).keyDown 0xF = false := by decide
theorem witness_KeyWaitTakesLeastKeyOrParks :
    (State.reset.setKey 15 true).keyDown 0xF = true ∧ (∀ j : Key, j < 0xF → (State.reset.setKey 15 true).keyDown j = false) ∧
    (∀ k, State.reset.keyDown k = false) := by decide
theorem witness_ParkedKeyWaitResumesOnKey :
    (atTop 0xF30A).fetched = some (.ldVxK 3) ∧ (∀ j, (atTop 0xF30A).keyDown j = false) := by decide
theorem witness_TimersAndKeysAreUsedOnlyByName :
    observe (exec (.ldDTVx 5) (withRegs [(5, 1#8)])) [.dt] = some [1] ∧
    observe (exec (.ldSTVx 5) (withRegs [(5, 1#8)])) [.st] = some [1] ∧ State.reset.dt = 0#8 ∧ State.reset.st = 0#8 ∧
    (∀ x, Instr.cls ≠ .skp x ∧ Instr.cls ≠ .sknp x ∧ Instr.cls ≠ .ldVxK x) ∧
    (∀ x, Instr.ldSTVx 5 ≠ .ldVxDT x ∧ Instr.ldSTVx 5 ≠ .ldDTVx x) ∧ (∀ x, Instr.ldDTVx 5 ≠ .ldSTVx x) := by decide
theorem witness_DecimalDigitsAreStored :
    Memory.wf (withI 0xFFD#16 []).mem = true ∧ (withI 0xFFD#16 []).i.toNat + 2 ≤ 0xFFF ∧
    Memory.wf (withI 0xFFE#16 []).mem = true ∧ 0xFFF < (withI 0xFFE#16 []).i.toNat + 2 := by decide
theorem witness_RegistersMoveThroughI :
    Memory.wf (withI 0xFF0#16 []).mem = true ∧ (withI 0xFF0#16 []).i.toNat + (0xF : Reg).val ≤ 0xFFF ∧
    Memory.wf (withI 0xFF1#16 []).mem = true ∧ 0xFFF < (withI 0xFF1#16 []).i.toNat + (0xF : Reg).val ∧
    0xFFF < (withI 0x1000#16 []).i.toNat + (0 : Reg).val := by decide
/-- `LD [I], V1` with `I` at `pc`: the word of `V0` and `V1` is the next one fetched. -/
theorem witness_StoredWordIsFetched :
    Memory.wf (withI 0x200#16 [(0, 0x12#8), (1, 0x34#8)]).mem = true ∧
    observe (exec (.ldMemVx 1) (withI 0x200#16 [(0, 0x12#8), (1, 0x34#8)])) [.pc] = some [0x200] ∧
    (1 : Reg).val = (0 : Reg).val + 1 ∧ (1 : Reg) ≤ 1 ∧
    0x200 = (withI 0x200#16 [(0, 0x12#8), (1, 0x34#8)]).i.toNat + (0 : Reg).val := by decide
theorem witness_InstructionsWriteOnlyTheirParts :
    Memory.wf (withI 0x300#16 [(0, 1#8)]).mem = true ∧ completes (exec (.ldMemVx 0) (withI 0x300#16 [(0, 1#8)])) = true := by
  decide
theorem witness_TransactionsWriteOnlyTheirParts : Memory.wf (atTop 0x00EE).mem = true := by decide
theorem witness_RunInvariantIsKept : Inv (atTop 0x2300) ∧ completes (step (atTop 0x2300)) = true :=
  ⟨⟨by decide, by decide, fun j h => absurd h (Nat.not_lt_zero _)⟩, by decide⟩
/-- A live return address at its bound. -/
theorem witness_RunInvariantIsKept_deep : Inv ((deep 16).setPc 0x10FE#16) := ⟨by decide, by decide, by decide⟩
/-- Two lists of stores, one memory. -/
theorem witness_ObservablePartsDetermineState :
    Memory.wf ((State.reset.storeBytes 0x300 [1#8]).storeBytes 0x300 [0#8]).mem = true ∧
    Memory.wf State.reset.mem = true ∧
    ∀ p, ((State.reset.storeBytes 0x300 [1#8]).storeBytes 0x300 [0#8]).value p = State.reset.value p :=
  ⟨by decide, by decide, fun p => by rw [show (State.reset.storeBytes 0x300 [1#8]).storeBytes 0x300 [0#8] = State.reset by decide]⟩
theorem witness_ResetLeavesTheResetValues :
    Part.mem 0x09F ≠ .draws ∧ 4 < 5 ∧ [0xF080F08080][0]? = some 0xF080F08080 ∧ (0x04F < 0x050 ∨ 0x0A0 ≤ 0x04F) ∧
    (0x0A0 < 0x050 ∨ 0x0A0 ≤ 0x0A0) ∧ (∀ a, Part.stack 15 ≠ .mem a) ∧ Part.stack 15 ≠ .pc ∧ Part.stack 15 ≠ .draws :=
  ⟨by decide, by decide, by decide, by decide, by decide, (fun _ h => by cases h), by decide, by decide⟩
theorem witness_LoadCopiesTheRom :
    Memory.wf State.reset.mem = true ∧ (List.replicate 3584 0#8 : List Byte).length ≤ 4096 - 0x200 ∧
    4096 - 0x200 < (List.replicate 3585 0#8 : List Byte).length :=
  ⟨by decide, Nat.le_of_eq List.length_replicate, Nat.le_of_eq List.length_replicate.symm⟩
theorem witness_TickDecrementsEachTimer :
    0 < (State.reset.setDT 1#8).dt.toNat ∧ 0 < (State.reset.setST 0xFF#8).st.toNat ∧ State.reset.dt.toNat = 0 ∧
    State.reset.st.toNat = 0 ∧ (∀ x, (atTop 0xF507).fetched ≠ some (.ldDTVx x) ∧ (atTop 0xF507).fetched ≠ some (.ldSTVx x)) := by
  decide
theorem witness_SetKeyWritesOneKey : (15 : Key).val = 15 ∧ 15 < 16 := by decide
theorem witness_SoundLevelFollowsSoundTimer :
    ((State.reset.setST 1#8).call .tickTimers).2.soundActive ≠ (State.reset.setST 1#8).soundActive ∧
    (((withRegs [(0, 1#8)]).withFetchWord 16 0xF018).call (.executeInstruction 0#8)).2.soundActive ≠
      ((withRegs [(0, 1#8)]).withFetchWord 16 0xF018).soundActive := by decide
theorem load_too_long (s : State) (rom : List Byte) (h : 3585 ≤ rom.length) :
    (s.call (.load rom)).1.status = .capacityExceeded :=
  congrArg Prod.fst (if_pos h : s.load rom = (.capacityExceeded, s))
theorem witness_TransactionsReturnOnlyTheirErrors :
    (State.reset.call (.executeInstruction 0#8)).1.status ≠ .ok ∧
    (State.reset.call (.load (List.replicate 3585 0#8))).1.status ≠ .ok :=
  ⟨by decide, by
    rw [load_too_long _ _ (Nat.le_of_eq List.length_replicate.symm)]
    decide⟩
/-- A tick, then a step on the illegal word of the empty memory. -/
theorem witness_RunEndsAtFirstError :
    (∀ r ∈ (State.calls [.tickTimers] State.reset).1, r.status = .ok) ∧
    ((State.calls [.tickTimers] State.reset).2.call (.executeInstruction 0#8)).1.status ≠ .ok := by decide

end Sys2Proof.Tests
end

/-! # The sequencer: words that do not decode, aborted instructions, timers and keys (40_sequencer.md) -/

namespace Sys2Proof.Machine

/-! ## The fetch and the advance below the top of memory (R101, R102) -/

/-- The word fetched is the one whose number the two bytes at `pc` spell (20_memory.md R55). -/
theorem State.fetch_of_bytes {s : State} {w : Word} (hpc : s.pc.toNat ≤ 0xFFE)
    (hw : w.toNat = (s.byteAt s.pc.toNat).toNat * 0x100 + (s.byteAt (s.pc.toNat + 1)).toNat) :
    s.fetch = some w := by
  rw [State.fetch_eq, if_pos hpc]
  exact congrArg some (BitVec.eq_of_toNat_eq ((wordOfBytes_toNat _ _).trans hw.symm))

/-- Where the fetch succeeds the advance does not wrap (R106). -/
theorem State.advance_pc_toNat {s : State} (hpc : s.pc.toNat ≤ 0xFFE) :
    s.advance.pc.toNat = s.pc.toNat + 2 := by
  simp only [State.advance_eq, State.setPc_pc, BitVec.toNat_add, BitVec.toNat_ofNat]
  omega

/-- Where the fetch succeeds any error leaves the advanced state. -/
theorem State.afterError_of_pc_le {s : State} (hpc : s.pc.toNat ≤ 0xFFE) : s.afterError = s.advance := by
  have hfetch : s.fetch = some _ := (State.fetch_eq s).trans (if_pos hpc)
  exact State.afterError_of_fetch hfetch

/-! ## What an error does to a cycle and to `executeInstruction` (R104, R107) -/

theorem State.cycle_of_decode_error {s : State} {w : Word} {e : Illegal} (hf : s.fetch = some w)
    (hd : decode w = .error e) (run : Instr → State → Result) : s.cycle run = .fault .unknownOpcode := by
  simp [State.cycle, hf, hd, raise]

theorem State.executeInstruction_of_fault {s : State} {rnd : Byte} {e : Fault}
    (h : s.cycle (execWith rnd) = .fault e) : s.executeInstruction rnd = (e.status, s.afterError) := by
  simp [State.executeInstruction, h]

/-- Every result but `ok` comes with the state `afterError` keeps. -/
theorem State.executeInstruction_state_of_ne_ok {s t : State} {rnd : Byte} {st : Status}
    (h : s.executeInstruction rnd = (st, t)) (hst : st ≠ .ok) : t = s.afterError := by
  unfold State.executeInstruction at h
  split at h
  · exact absurd (congrArg Prod.fst h).symm hst
  · exact (congrArg Prod.snd h).symm
  · exact (congrArg Prod.snd h).symm

/-- Settles O9: the fetched word is `w`, so the cycle ends in `UnknownOpcode` and leaves the advanced state. -/
theorem unknownOpcodeOnlyAdvancesPc : Obligations.UnknownOpcodeOnlyAdvancesPc := by
  intro s rnd w e hpc hw hd
  have hf : s.fetch = some w := State.fetch_of_bytes hpc hw
  refine ⟨State.cycle_of_decode_error hf hd exec, s.advance, ?_, State.advance_pc_toNat hpc,
    s.setPc_onlyChanges _⟩
  rw [State.executeInstruction_of_fault (State.cycle_of_decode_error hf hd _), State.afterError_of_fetch hf]
  rfl

/-- Settles O10: every error leaves the state `afterError` keeps, which after a fetch is the advanced one. -/
theorem abortedInstructionsLeaveOnlyPcAdvanced : Obligations.AbortedInstructionsLeaveOnlyPcAdvanced := by
  intro s t rnd st hpc h hst
  obtain rfl : t = s.advance :=
    (State.executeInstruction_state_of_ne_ok h hst).trans (State.afterError_of_pc_le hpc)
  exact ⟨State.advance_pc_toNat hpc, rfl⟩

/-! ## Changing the keys and the timers under an instruction (R109)

One commutation, `exec_mapDevices`, says what every instruction does with the keys and the timers: that it reads only
those it names and that it leaves alone those it does not load both follow from it. -/

/-- The state with its keys and its two timers put through a function each. -/
def State.mapDevices (fk : Vector Bool 16 → Vector Bool 16) (fd fs : Byte → Byte) (s : State) : State :=
  { s with key := fk s.key, dt := fd s.dt, st := fs s.st }

section
variable (fk : Vector Bool 16 → Vector Bool 16) (fd fs : Byte → Byte) (s : State)

theorem skipIf_mapDevices (c : Bool) :
    skipIf c (s.mapDevices fk fd fs) = mapNext (State.mapDevices fk fd fs) (skipIf c s) := by
  cases c <;> rfl

theorem State.push_mapDevices (a : Word) :
    (s.mapDevices fk fd fs).push a = (s.push a).map (State.mapDevices fk fd fs) := by
  unfold State.push
  rw [apply_dite (Option.map _)]
  rfl

theorem State.pop_mapDevices :
    (s.mapDevices fk fd fs).pop = s.pop.map (Prod.map id (State.mapDevices fk fd fs)) := by
  unfold State.pop
  rw [apply_dite (Option.map _)]
  rfl

theorem State.storeAtI_mapDevices (bs : List Byte) :
    (s.mapDevices fk fd fs).storeAtI bs = mapNext (State.mapDevices fk fd fs) (s.storeAtI bs) := by
  unfold State.storeAtI
  rw [apply_ite (mapNext _)]
  rfl

theorem execRet_mapDevices :
    execRet (s.mapDevices fk fd fs) = mapNext (State.mapDevices fk fd fs) (execRet s) := by
  unfold execRet
  rw [State.pop_mapDevices]
  cases s.pop <;> rfl

theorem execCall_mapDevices (nnn : Addr) :
    execCall nnn (s.mapDevices fk fd fs) = mapNext (State.mapDevices fk fd fs) (execCall nnn s) := by
  unfold execCall
  rw [State.push_mapDevices, show (s.mapDevices fk fd fs).pc = s.pc from rfl]
  cases s.push s.pc <;> rfl

theorem execDrw_mapDevices (x y : Reg) (n : Nat) :
    execDrw x y n (s.mapDevices fk fd fs) = mapNext (State.mapDevices fk fd fs) (execDrw x y n s) := by
  unfold execDrw
  rw [apply_ite (mapNext _)]
  rfl

theorem execLdVxMem_mapDevices (x : Reg) :
    execLdVxMem x (s.mapDevices fk fd fs) = mapNext (State.mapDevices fk fd fs) (execLdVxMem x s) := by
  unfold execLdVxMem
  rw [apply_ite (mapNext _)]
  rfl

/-! The key instructions, where the change keeps the keys. -/

variable {fk s}

theorem State.keyDown_mapDevices (hk : fk s.key = s.key) (k : Key) :
    (s.mapDevices fk fd fs).keyDown k = s.keyDown k :=
  congrArg (fun key : Vector Bool 16 => key[k]) hk

theorem execSkp_mapDevices (hk : fk s.key = s.key) (x : Reg) :
    execSkp x (s.mapDevices fk fd fs) = mapNext (State.mapDevices fk fd fs) (execSkp x s) := by
  unfold execSkp
  rw [State.keyDown_mapDevices fd fs hk, skipIf_mapDevices]
  rfl

theorem execSknp_mapDevices (hk : fk s.key = s.key) (x : Reg) :
    execSknp x (s.mapDevices fk fd fs) = mapNext (State.mapDevices fk fd fs) (execSknp x s) := by
  unfold execSknp
  rw [State.keyDown_mapDevices fd fs hk, skipIf_mapDevices]
  rfl

theorem execLdVxK_mapDevices (hk : fk s.key = s.key) (x : Reg) :
    execLdVxK x (s.mapDevices fk fd fs) = mapNext (State.mapDevices fk fd fs) (execLdVxK x s) := by
  have hleast : (s.mapDevices fk fd fs).leastKey = s.leastKey :=
    congrArg (fun p => (List.finRange 16).find? p) (funext (State.keyDown_mapDevices fd fs hk))
  unfold execLdVxK
  rw [hleast]
  cases s.leastKey <;> rfl

end

/-- A change of the keys and the timers commutes with an instruction when it keeps what the instruction reads of them
and what the instruction loads into them. -/
theorem exec_mapDevices {fk : Vector Bool 16 → Vector Bool 16} {fd fs : Byte → Byte} (i : Instr) (s : State)
    (hkey : ∀ x, i = .skp x ∨ i = .sknp x ∨ i = .ldVxK x → fk s.key = s.key)
    (hreadDT : ∀ x, i = .ldVxDT x → fd s.dt = s.dt)
    (hloadDT : ∀ x, i = .ldDTVx x → fd (s.getV x) = s.getV x)
    (hloadST : ∀ x, i = .ldSTVx x → fs (s.getV x) = s.getV x) :
    exec i (s.mapDevices fk fd fs) = mapNext (State.mapDevices fk fd fs) (exec i s) := by
  cases i with
  | ret => exact execRet_mapDevices fk fd fs s
  | call nnn => exact execCall_mapDevices fk fd fs s nnn
  | drw x y n => exact execDrw_mapDevices fk fd fs s x y n
  | ldB x => exact State.storeAtI_mapDevices fk fd fs s (decimalDigits (s.getV x))
  | ldMemVx x => exact State.storeAtI_mapDevices fk fd fs s (s.firstRegs x)
  | ldVxMem x => exact execLdVxMem_mapDevices fk fd fs s x
  | seImm | sneImm | seReg | sneReg => exact skipIf_mapDevices fk fd fs s _
  | skp x => exact execSkp_mapDevices fd fs (hkey x (.inl rfl)) x
  | sknp x => exact execSknp_mapDevices fd fs (hkey x (.inr (.inl rfl))) x
  | ldVxK x => exact execLdVxK_mapDevices fd fs (hkey x (.inr (.inr rfl))) x
  | ldVxDT x =>
    exact congrArg (fun b => Host.Outcome.next ((s.mapDevices fk fd fs).setV x b)) (hreadDT x rfl)
  | ldDTVx x =>
    exact congrArg (fun b => Host.Outcome.next ((s.mapDevices fk fd fs).setDT b)) (hloadDT x rfl).symm
  | ldSTVx x =>
    exact congrArg (fun b => Host.Outcome.next ((s.mapDevices fk fd fs).setST b)) (hloadST x rfl).symm
  | _ => rfl

/-! ## Frames: a change that fixes the present values fixes the values after the instruction -/

theorem eq_of_next_eq_mapNext {f : State → State} {r : Result} {t : State} (h : r = .next t)
    (hf : r = mapNext f r) : t = f t := by
  subst h
  exact Host.Outcome.next.inj hf

theorem exec_keeps_key {i : Instr} {s t : State} (h : exec i s = .next t) : t.key = s.key := by
  have hfix := eq_of_next_eq_mapNext h <|
    exec_mapDevices (fk := fun _ => s.key) (fd := id) (fs := id) i s
      (fun _ _ => rfl) (fun _ _ => rfl) (fun _ _ => rfl) (fun _ _ => rfl)
  exact (congrArg State.key hfix :)

theorem exec_keeps_dt {i : Instr} {s t : State} (h : exec i s = .next t) (hi : ∀ x, i ≠ .ldDTVx x) : t.dt = s.dt := by
  have hfix := eq_of_next_eq_mapNext h <|
    exec_mapDevices (fk := id) (fd := fun _ => s.dt) (fs := id) i s
      (fun _ _ => rfl) (fun _ _ => rfl) (fun x hx => absurd hx (hi x)) (fun _ _ => rfl)
  exact (congrArg State.dt hfix :)

theorem exec_keeps_st {i : Instr} {s t : State} (h : exec i s = .next t) (hi : ∀ x, i ≠ .ldSTVx x) : t.st = s.st := by
  have hfix := eq_of_next_eq_mapNext h <|
    exec_mapDevices (fk := id) (fd := id) (fs := fun _ => s.st) i s
      (fun _ _ => rfl) (fun _ _ => rfl) (fun _ _ => rfl) (fun x hx => absurd hx (hi x))
  exact (congrArg State.st hfix :)

theorem dt_of_exec_ldDTVx {s t : State} {x : Reg} (h : exec (.ldDTVx x) s = .next t) : t.dt = s.getV x :=
  (congrArg State.dt (Host.Outcome.next.inj h)).symm

theorem st_of_exec_ldSTVx {s t : State} {x : Reg} (h : exec (.ldSTVx x) s = .next t) : t.st = s.getV x :=
  (congrArg State.st (Host.Outcome.next.inj h)).symm

/-- A changed delay timer was loaded by `LD DT, Vx`. -/
theorem exec_changes_dt_by_name {i : Instr} {s t : State} (h : exec i s = .next t) (hdt : t.dt ≠ s.dt) :
    ∃ x, i = .ldDTVx x ∧ t.dt = s.getV x := by
  by_cases hi : ∃ x, i = .ldDTVx x
  · obtain ⟨x, rfl⟩ := hi
    exact ⟨x, rfl, dt_of_exec_ldDTVx h⟩
  · exact absurd (exec_keeps_dt h (not_exists.1 hi)) hdt

/-- A changed sound timer was loaded by `LD ST, Vx`. -/
theorem exec_changes_st_by_name {i : Instr} {s t : State} (h : exec i s = .next t) (hst : t.st ≠ s.st) :
    ∃ x, i = .ldSTVx x ∧ t.st = s.getV x := by
  by_cases hi : ∃ x, i = .ldSTVx x
  · obtain ⟨x, rfl⟩ := hi
    exact ⟨x, rfl, st_of_exec_ldSTVx h⟩
  · exact absurd (exec_keeps_st h (not_exists.1 hi)) hst

/-- Settles O36: the writes are the frames above, and each read clause is `exec_mapDevices` for a change of that one
device alone. -/
theorem timersAndKeysAreUsedOnlyByName : Obligations.TimersAndKeysAreUsedOnlyByName := by
  refine ⟨fun i s t h => ⟨exec_changes_dt_by_name h, exec_changes_st_by_name h, exec_keeps_key h⟩,
    fun i s k hi => ?keys, fun i s d hi => ?dt, fun i s d hi => ?st, fun s x d => ⟨rfl, rfl⟩⟩
  case keys =>
    refine exec_mapDevices (fk := fun _ => k) (fd := id) (fs := id) i s (fun x hx => ?_)
      (fun _ _ => rfl) (fun _ _ => rfl) (fun _ _ => rfl)
    obtain ⟨hskp, hsknp, hldVxK⟩ := hi x
    exact absurd hx (by simp [hskp, hsknp, hldVxK])
  case dt =>
    exact exec_mapDevices (fk := id) (fd := fun _ => d) (fs := id) i s (fun _ _ => rfl)
      (fun x hx => absurd hx (hi x).1) (fun x hx => absurd hx (hi x).2) (fun _ _ => rfl)
  case st =>
    exact exec_mapDevices (fk := id) (fd := id) (fs := fun _ => d) i s (fun _ _ => rfl)
      (fun _ _ => rfl) (fun _ _ => rfl) (fun x hx => absurd hx (hi x))

end Sys2Proof.Machine

/-! # The register ALU: `LD Vx, kk` (42_register_alu.md R141) -/

namespace Sys2Proof.Machine

/-- The word of `LD Vx, kk` as one number, `6xkk`. -/
theorem encode_ldImm (x : Reg) (kk : Byte) :
    encode (.ldImm x kk) = BitVec.ofNat 16 (0x6000 + x.val * 0x100 + kk.toNat) := rfl

theorem exec_ldImm (x : Reg) (kk : Byte) (s : State) : exec (.ldImm x kk) s = .next (s.setV x kk) := rfl

/-- Settles O20: the word is the one `encode` gives, and the instruction is the one register write. -/
theorem loadImmediateWritesRegister : Obligations.LoadImmediateWritesRegister := by
  intro s x kk
  refine ⟨?word, s.setV x kk, exec_ldImm x kk s, ?loaded, s.setV_onlyChanges x kk⟩
  case word =>
    rw [← encode_ldImm]
    exact Laws.DecodeEncode.ldImm x kk rfl
  case loaded => rw [State.getV_setV, if_pos rfl]

end Sys2Proof.Machine

/-! # The display: what `DRW` reads and who writes the pixels (43_display.md R174) -/

namespace Sys2Proof.Machine

/-! ## A draw is a function of its named inputs -/

/-- Two buffers with the same pixels are one buffer. -/
theorem FrameBuffer.ext {fb fb' : FrameBuffer} (h : ∀ x y, FrameBuffer.read fb x y = FrameBuffer.read fb' x y) :
    fb = fb' :=
  Vector.ext fun y hy => Vector.ext fun x hx => h ⟨x, hx⟩ ⟨y, hy⟩

/-- The buffer and the collision of a draw, before either is written to the state. -/
def State.blitSprite (s : State) (x y : Reg) (n : Nat) : FrameBuffer × Bool :=
  blit s.fb false (spritePixels (s.spriteOrigin x y).1 (s.spriteOrigin x y).2 (s.spriteRows n))

theorem State.pixel_drawSprite (s : State) (x y : Reg) (n : Nat) (px : Fin 64) (py : Fin 32) :
    (s.drawSprite x y n).pixel px py = FrameBuffer.read (s.blitSprite x y n).1 px py := rfl

theorem State.getV_VF_drawSprite (s : State) (x y : Reg) (n : Nat) :
    (s.drawSprite x y n).getV VF = flagByte (s.blitSprite x y n).2 :=
  (State.getV_setV _ VF VF _).trans (if_pos rfl)

section
variable {s s' : State} {n : Nat}

theorem State.spriteRows_congr (hi : s.i = s'.i)
    (hrows : ∀ r, r < n → s.byteAt (s.i.toNat + r) = s'.byteAt (s.i.toNat + r)) :
    s.spriteRows n = s'.spriteRows n := by
  unfold State.spriteRows
  rw [← hi]
  exact List.map_congr_left fun r hr => hrows r (List.mem_range.1 hr)

theorem State.spriteOrigin_congr {x y : Reg} (hx : s.getV x = s'.getV x) (hy : s.getV y = s'.getV y) :
    s.spriteOrigin x y = s'.spriteOrigin x y := by
  rw [State.spriteOrigin, hx, hy, State.spriteOrigin]

theorem State.blitSprite_congr {x y : Reg} (hfb : s.fb = s'.fb) (horigin : s.spriteOrigin x y = s'.spriteOrigin x y)
    (hrows : s.spriteRows n = s'.spriteRows n) : s.blitSprite x y n = s'.blitSprite x y n := by
  rw [State.blitSprite, hfb, horigin, hrows, State.blitSprite]

end

theorem exec_drw_in_memory {s : State} {n : Nat} (h : rangeInMemory s.i.toNat n = true) (x y : Reg) :
    exec (.drw x y n) s = .next (s.drawSprite x y n) := if_pos h

theorem exec_drw_past_memory {s : State} {n : Nat} (h : ¬ rangeInMemory s.i.toNat n = true) (x y : Reg) :
    exec (.drw x y n) s = .fault .outOfBoundsAccess := if_neg h

/-! ## Only `CLS` and `DRW` write the display buffer -/

section
variable {s t : State}

/-- An answer known to be `u` keeps the buffer when `u` does. -/
theorem fb_eq_of_next_eq {u : State} (h : (.next u : Result) = .next t) (hu : u.fb = s.fb) : t.fb = s.fb :=
  Host.Outcome.next.inj h ▸ hu

theorem State.push_keeps_fb {a : Word} (h : s.push a = some t) : t.fb = s.fb := by
  obtain ⟨_, rfl⟩ := State.push_eq_some.1 h
  rfl

theorem State.pop_keeps_fb {a : Word} (h : s.pop = some (a, t)) : t.fb = s.fb := by
  obtain ⟨_, _, rfl⟩ := State.pop_eq_some.1 h
  rfl

theorem State.storeAtI_keeps_fb {bs : List Byte} (h : s.storeAtI bs = .next t) : t.fb = s.fb := by
  obtain ⟨-, hstore⟩ | ⟨-, -, hfault⟩ := s.storeAtI_cases bs
  · exact fb_eq_of_next_eq (hstore.symm.trans h) rfl
  · cases hfault.symm.trans h

theorem skipIf_keeps_fb {c : Bool} (h : skipIf c s = .next t) : t.fb = s.fb :=
  fb_eq_of_next_eq h (by cases c <;> rfl)

theorem execRet_keeps_fb (h : execRet s = .next t) : t.fb = s.fb := by
  unfold execRet at h
  split at h
  · next hpop =>
    have hfb := State.pop_keeps_fb hpop
    exact fb_eq_of_next_eq h hfb
  · cases h

theorem execCall_keeps_fb {nnn : Addr} (h : execCall nnn s = .next t) : t.fb = s.fb := by
  unfold execCall at h
  split at h
  · next hpush =>
    have hfb := State.push_keeps_fb hpush
    exact fb_eq_of_next_eq h hfb
  · cases h

theorem execLdVxK_keeps_fb {x : Reg} (h : execLdVxK x s = .next t) : t.fb = s.fb := by
  unfold execLdVxK at h
  split at h <;> exact fb_eq_of_next_eq h rfl

theorem execLdVxMem_keeps_fb {x : Reg} (h : execLdVxMem x s = .next t) : t.fb = s.fb := by
  unfold execLdVxMem at h
  split at h
  · exact fb_eq_of_next_eq h rfl
  · cases h

theorem exec_keeps_fb {i : Instr} (h : exec i s = .next t) (hcls : i ≠ .cls) (hdrw : ∀ x y n, i ≠ .drw x y n) :
    t.fb = s.fb := by
  cases i with
  | cls => exact absurd rfl hcls
  | drw x y n => exact absurd rfl (hdrw x y n)
  | ret => exact execRet_keeps_fb h
  | call => exact execCall_keeps_fb h
  | seImm | sneImm | seReg | sneReg | skp | sknp => exact skipIf_keeps_fb h
  | ldVxK => exact execLdVxK_keeps_fb h
  | ldB | ldMemVx => exact State.storeAtI_keeps_fb h
  | ldVxMem => exact execLdVxMem_keeps_fb h
  | _ => exact fb_eq_of_next_eq h rfl

theorem pixel_of_exec_cls (h : exec .cls s = .next t) (px : Fin 64) (py : Fin 32) : t.pixel px py = false := by
  obtain rfl := Host.Outcome.next.inj h
  exact FrameBuffer.read_dark px py

/-- A changed pixel was written by `DRW` or `CLS`. -/
theorem exec_changes_pixel_by_name {i : Instr} (h : exec i s = .next t)
    (hpixel : ∃ px py, t.pixel px py ≠ s.pixel px py) : (∃ x y n, i = .drw x y n) ∨ i = .cls := by
  by_contra hi
  simp only [not_or, not_exists] at hi
  obtain ⟨hdrw, hcls⟩ := hi
  obtain ⟨px, py, hne⟩ := hpixel
  have hfb : t.fb = s.fb := exec_keeps_fb h hcls hdrw
  exact hne (congrArg (fun fb => FrameBuffer.read fb px py) hfb)

end

/-- Settles O30: states that agree on the inputs pass the same bounds check and blit the same sprite into the same
buffer; no instruction but `DRW` and `CLS` writes the buffer. -/
theorem drawDependsOnlyOnItsInputs : Obligations.DrawDependsOnlyOnItsInputs := by
  refine ⟨fun s s' x y n _ hi hx hy hpixels hrows => ?draw, fun i s t h hpixel => ?others⟩
  case draw =>
    have hblit : s.blitSprite x y n = s'.blitSprite x y n :=
      State.blitSprite_congr (FrameBuffer.ext hpixels) (State.spriteOrigin_congr hx hy)
        (State.spriteRows_congr hi hrows)
    by_cases hmem : rangeInMemory s.i.toNat n = true
    · refine .inl ⟨_, _, exec_drw_in_memory hmem x y, exec_drw_in_memory (hi ▸ hmem) x y, fun px py => ?_, ?_⟩
      · rw [State.pixel_drawSprite, State.pixel_drawSprite, hblit]
      · rw [State.getV_VF_drawSprite, State.getV_VF_drawSprite, hblit]
    · exact .inr ⟨exec_drw_past_memory hmem x y, exec_drw_past_memory (hi ▸ hmem) x y⟩
  case others =>
    refine (exec_changes_pixel_by_name h hpixel).imp_right fun hcls => ⟨hcls, ?_⟩
    subst hcls
    exact pixel_of_exec_cls h

end Sys2Proof.Machine

/-! # The index register: `LD I, nnn` (45_index_memory.md R210) -/

namespace Sys2Proof.Machine

/-- The word of `LD I, nnn` as one number, `Annn`. -/
theorem encode_ldI (nnn : Addr) : encode (.ldI nnn) = BitVec.ofNat 16 (0xA000 + nnn.toNat) := rfl

theorem exec_ldI (nnn : Addr) (s : State) : exec (.ldI nnn) s = .next (s.setI (addr16 nnn)) := rfl

/-- Settles O37: the word is the one `encode` gives, and the instruction is the one write of `I`, with the address
extended by zeros. -/
theorem loadIndexSetsI : Obligations.LoadIndexSetsI := by
  intro s nnn
  refine ⟨?word, s.setI (addr16 nnn), exec_ldI nnn s, ?loaded, s.setI_onlyChanges (addr16 nnn)⟩
  case word =>
    rw [← encode_ldI]
    exact Laws.DecodeEncode.ldI nnn rfl
  case loaded => rw [State.setI_i, addr16_toNat]

end Sys2Proof.Machine

/-! # Exceptions: the timers and the sound level (60_exceptions.md R240, R243) -/

namespace Sys2Proof.Machine

/-! ## What `executeInstruction` does to the timers -/

/-- With its random byte given an instruction is itself, but for `RND`, which loads the masked byte. -/
theorem execWith_cases (rnd : Byte) (i : Instr) (s : State) :
    execWith rnd i s = exec i s ∨ ∃ x kk, i = .rnd x kk ∧ execWith rnd i s = .next (s.setV x (rnd &&& kk)) := by
  cases i with
  | rnd x kk => exact .inr ⟨x, kk, rfl, rfl⟩
  | _ => exact .inl rfl

theorem State.fetched_of_decode {s : State} {w : Word} {i : Instr} (hf : s.fetch = some w) (hd : decode w = .ok i) :
    s.fetched = some i := by
  simp [State.fetched, hf, hd, Except.toOption]

/-- The state `executeInstruction` leaves: the one an error keeps, or the fetched instruction's next state. -/
theorem State.executeInstruction_state_cases (s : State) (rnd : Byte) :
    (s.executeInstruction rnd).2 = s.afterError ∨
    ∃ i, s.fetched = some i ∧ execWith rnd i s.advance = .next (s.executeInstruction rnd).2 := by
  unfold State.executeInstruction
  split
  · next t hnext =>
    obtain ⟨-, hfault⟩ | ⟨w, e, -, -, hfault⟩ | ⟨w, i, hf, hd, hrun⟩ := s.cycle_cases (execWith rnd)
    · cases hnext.symm.trans hfault
    · cases hnext.symm.trans hfault
    · exact .inr ⟨i, State.fetched_of_decode hf hd, hrun.symm.trans hnext⟩
  · exact .inl rfl
  · exact .inl rfl

section
variable {s t : State} {rnd : Byte} {i : Instr}

theorem execWith_keeps_dt (h : execWith rnd i s = .next t) (hi : ∀ x, i ≠ .ldDTVx x) : t.dt = s.dt := by
  obtain hexec | ⟨x, kk, -, hrnd⟩ := execWith_cases rnd i s
  · exact exec_keeps_dt (hexec.symm.trans h) hi
  · obtain rfl := Host.Outcome.next.inj (hrnd.symm.trans h)
    rfl

theorem execWith_keeps_st (h : execWith rnd i s = .next t) (hi : ∀ x, i ≠ .ldSTVx x) : t.st = s.st := by
  obtain hexec | ⟨x, kk, -, hrnd⟩ := execWith_cases rnd i s
  · exact exec_keeps_st (hexec.symm.trans h) hi
  · obtain rfl := Host.Outcome.next.inj (hrnd.symm.trans h)
    rfl

end

@[simp] theorem State.afterError_dt (s : State) : s.afterError.dt = s.dt := by
  unfold State.afterError
  split <;> rfl

@[simp] theorem State.afterError_st (s : State) : s.afterError.st = s.st := by
  unfold State.afterError
  split <;> rfl

theorem State.executeInstruction_keeps_dt {s : State} (rnd : Byte) (hi : ∀ x, s.fetched ≠ some (.ldDTVx x)) :
    (s.executeInstruction rnd).2.dt = s.dt := by
  obtain herr | ⟨i, hf, hrun⟩ := s.executeInstruction_state_cases rnd
  · rw [herr, State.afterError_dt]
  · rw [execWith_keeps_dt hrun fun x hx => hi x (hx ▸ hf), State.advance_eq, State.setPc_dt]

theorem State.executeInstruction_keeps_st {s : State} (rnd : Byte) (hi : ∀ x, s.fetched ≠ some (.ldSTVx x)) :
    (s.executeInstruction rnd).2.st = s.st := by
  obtain herr | ⟨i, hf, hrun⟩ := s.executeInstruction_state_cases rnd
  · rw [herr, State.afterError_st]
  · rw [execWith_keeps_st hrun fun x hx => hi x (hx ▸ hf), State.advance_eq, State.setPc_st]

/-! ## A tick (R240) -/

/-- A tick is subtraction that stops at zero. -/
@[simp] theorem tickDown_toNat (b : Byte) : (tickDown b).toNat = b.toNat - 1 := by
  unfold tickDown
  split <;> bv_omega

@[simp] theorem State.tickTimers_dt_toNat (s : State) : s.tickTimers.dt.toNat = s.dt.toNat - 1 := tickDown_toNat s.dt

@[simp] theorem State.tickTimers_st_toNat (s : State) : s.tickTimers.st.toNat = s.st.toNat - 1 := tickDown_toNat s.st

theorem State.tickTimers_onlyChanges (s : State) : OnlyChanges s s.tickTimers fun p => p = .dt ∨ p = .st :=
  have hdt := (s.setDT_onlyChanges (tickDown s.dt)).mono fun _ => .inl
  have hst := ((s.setDT (tickDown s.dt)).setST_onlyChanges (tickDown s.st)).mono fun _ => .inr
  hdt.trans hst

/-- Settles O51: a tick takes one from each timer, stopping at zero, and an instruction leaves the timer it does not
load. -/
theorem tickDecrementsEachTimer : Obligations.TickDecrementsEachTimer := by
  intro s
  have hdt := s.tickTimers_dt_toNat
  have hst := s.tickTimers_st_toNat
  exact ⟨⟨s.tickTimers, rfl, by omega, by omega, by omega, by omega, s.tickTimers_onlyChanges⟩, fun rnd =>
    ⟨State.executeInstruction_keeps_dt rnd, State.executeInstruction_keeps_st rnd⟩⟩

/-! ## The sound level (R243) -/

theorem State.soundActive_iff (s : State) : s.soundActive = true ↔ s.st.toNat ≠ 0 := by
  rw [State.soundActive, bne_iff_ne, ne_eq, ← BitVec.toNat_inj]
  rfl

@[simp] theorem State.load_st (s : State) (rom : List Byte) : (s.load rom).2.st = s.st := by
  unfold State.load
  split <;> rfl

@[simp] theorem State.setKey_st (s : State) (code : Nat) (pressed : Bool) : (s.setKey code pressed).st = s.st := by
  unfold State.setKey
  split <;> rfl

/-- The transactions that can change the sound timer. -/
theorem State.call_changes_st_by_name {s : State} {c : HostCall} (h : (s.call c).2.st ≠ s.st) :
    c = .tickTimers ∨ c = .reset ∨ ∃ rnd x, c = .executeInstruction rnd ∧ s.fetched = some (.ldSTVx x) := by
  cases c with
  | reset => exact .inr (.inl rfl)
  | tickTimers => exact .inl rfl
  | load rom => exact absurd (s.load_st rom) h
  | getDisplay => exact absurd rfl h
  | setKey code pressed => exact absurd (s.setKey_st code pressed) h
  | executeInstruction rnd =>
    by_cases hi : ∃ x, s.fetched = some (.ldSTVx x)
    · obtain ⟨x, hx⟩ := hi
      exact .inr (.inr ⟨rnd, x, rfl, hx⟩)
    · exact absurd (State.executeInstruction_keeps_st rnd (not_exists.1 hi)) h

/-- Settles O55: the level is a function of the sound timer alone, so it changes only where the timer does. -/
theorem soundLevelFollowsSoundTimer : Obligations.SoundLevelFollowsSoundTimer := by
  refine fun s => ⟨s.soundActive_iff, fun c hlevel => State.call_changes_st_by_name fun hst => hlevel ?_⟩
  rw [State.soundActive, hst, State.soundActive]

end Sys2Proof.Machine

/-! # The load of a program (70_reset_and_hazards.md R262) -/

namespace Sys2Proof.Machine

/-- A sequence that fits is stored from 0x200 on. -/
theorem State.load_of_fits (s : State) {rom : List Byte} (h : rom.length ≤ 4096 - 0x200) :
    s.load rom = (.ok, s.storeBytes 0x200 rom) :=
  if_neg (Nat.not_lt.2 h)

/-- A sequence beyond the capacity is refused, and the state stays as it is. -/
theorem State.load_of_too_long (s : State) {rom : List Byte} (h : 4096 - 0x200 < rom.length) :
    s.load rom = (.capacityExceeded, s) :=
  if_pos h

/-- Settles O50: a load that fits is one store of the bytes at 0x200, inside the memory. -/
theorem loadCopiesTheRom : Obligations.LoadCopiesTheRom := by
  refine fun s rom hwf => ⟨fun hfits => ?fits, s.load_of_too_long⟩
  have hin : rom = [] ∨ 0x200 + rom.length ≤ 4096 := .inr (by omega)
  rw [s.load_of_fits hfits]
  refine ⟨rfl, fun j hj => ?copied, State.storeBytes_onlyChanges hwf hin⟩
  rw [State.byteAt_storeBytes hwf hin, if_pos (by omega), Nat.add_sub_cancel_left]

end Sys2Proof.Machine

/-! # The encoding: decoder, encoder, opcode table and assembler lines (30_encoding.md) -/

namespace Sys2Proof

/-! ## Decode after encode (R75 to R77) -/

theorem decode_encode (i : Instr) (hwf : i.wellFormed = true) : decode (encode i) = .ok i := by
  cases i with
  | cls => exact Laws.DecodeEncode.cls hwf
  | ret => exact Laws.DecodeEncode.ret hwf
  | jp nnn => exact Laws.DecodeEncode.jp nnn hwf
  | call nnn => exact Laws.DecodeEncode.call nnn hwf
  | seImm x kk => exact Laws.DecodeEncode.seImm x kk hwf
  | sneImm x kk => exact Laws.DecodeEncode.sneImm x kk hwf
  | seReg x y => exact Laws.DecodeEncode.seReg x y hwf
  | ldImm x kk => exact Laws.DecodeEncode.ldImm x kk hwf
  | addImm x kk => exact Laws.DecodeEncode.addImm x kk hwf
  | ldReg x y => exact Laws.DecodeEncode.ldReg x y hwf
  | orReg x y => exact Laws.DecodeEncode.orReg x y hwf
  | andReg x y => exact Laws.DecodeEncode.andReg x y hwf
  | xorReg x y => exact Laws.DecodeEncode.xorReg x y hwf
  | addReg x y => exact Laws.DecodeEncode.addReg x y hwf
  | subReg x y => exact Laws.DecodeEncode.subReg x y hwf
  | shr x y => exact Laws.DecodeEncode.shr x y hwf
  | subnReg x y => exact Laws.DecodeEncode.subnReg x y hwf
  | shl x y => exact Laws.DecodeEncode.shl x y hwf
  | sneReg x y => exact Laws.DecodeEncode.sneReg x y hwf
  | ldI nnn => exact Laws.DecodeEncode.ldI nnn hwf
  | jpV0 nnn => exact Laws.DecodeEncode.jpV0 nnn hwf
  | rnd x kk => exact Laws.DecodeEncode.rnd x kk hwf
  | drw x y n => exact Laws.DecodeEncode.drw x y n hwf
  | skp x => exact Laws.DecodeEncode.skp x hwf
  | sknp x => exact Laws.DecodeEncode.sknp x hwf
  | ldVxDT x => exact Laws.DecodeEncode.ldVxDT x hwf
  | ldVxK x => exact Laws.DecodeEncode.ldVxK x hwf
  | ldDTVx x => exact Laws.DecodeEncode.ldDTVx x hwf
  | ldSTVx x => exact Laws.DecodeEncode.ldSTVx x hwf
  | addI x => exact Laws.DecodeEncode.addI x hwf
  | ldF x => exact Laws.DecodeEncode.ldF x hwf
  | ldB x => exact Laws.DecodeEncode.ldB x hwf
  | ldMemVx x => exact Laws.DecodeEncode.ldMemVx x hwf
  | ldVxMem x => exact Laws.DecodeEncode.ldVxMem x hwf

/-- Settles O1: one case per instruction, each the round trip of its word format. -/
theorem decodeOfEncodeGivesInstruction : Obligations.DecodeOfEncodeGivesInstruction := decode_encode

/-! ## Encode after decode: a word is the word of its fields, whichever of them a format fixes -/

section
variable {w : Word} {op n : BitVec 4} {kk : Byte}

theorem wordA_of_op (hop : opField w = op) : wordA op (nnnField w) = w := hop ▸ wordA_fields w

theorem wordXK_of_op (hop : opField w = op) : wordXK op (xField w) (kkField w) = w := hop ▸ wordXK_fields w

theorem wordXK_of_op_kk (hop : opField w = op) (hkk : kkField w = kk) : wordXK op (xField w) kk = w :=
  hkk ▸ wordXK_of_op hop

theorem wordXYN_of_op (hop : opField w = op) : wordXYN op (xField w) (yField w) (nField w) = w :=
  hop ▸ wordXYN_fields w

theorem wordXYN_of_op_n (hop : opField w = op) (hn : nField w = n) : wordXYN op (xField w) (yField w) n = w :=
  hn ▸ wordXYN_of_op hop

end

/-- The trailing nibbles the arithmetic group leaves free. -/
theorem aluTail_of_ne (n : BitVec 4) : n ≠ 0x0#4 → n ≠ 0x1#4 → n ≠ 0x2#4 → n ≠ 0x3#4 → n ≠ 0x4#4 → n ≠ 0x5#4 →
    n ≠ 0x6#4 → n ≠ 0x7#4 → n ≠ 0xE#4 → n ∈ [0x8#4, 0x9#4, 0xA#4, 0xB#4, 0xC#4, 0xD#4, 0xF#4] := by
  revert n
  decide

/-- The list of 30_encoding.md R78 over the fields of a word. -/
def IllegalWord (w : Word) : Prop :=
  (opField w = 0x0#4 ∧ w ≠ 0x00E0#16 ∧ w ≠ 0x00EE#16) ∨
  (opField w = 0x5#4 ∧ nField w ≠ 0x0#4) ∨
  (opField w = 0x8#4 ∧ nField w ∈ [0x8#4, 0x9#4, 0xA#4, 0xB#4, 0xC#4, 0xD#4, 0xF#4]) ∨
  (opField w = 0x9#4 ∧ nField w ≠ 0x0#4) ∨
  (opField w = 0xE#4 ∧ kkField w ≠ 0x9E#8 ∧ kkField w ≠ 0xA1#8) ∨
  (opField w = 0xF#4 ∧ kkField w ≠ 0x07#8 ∧ kkField w ≠ 0x0A#8 ∧ kkField w ≠ 0x15#8 ∧ kkField w ≠ 0x18#8 ∧
    kkField w ≠ 0x1E#8 ∧ kkField w ≠ 0x29#8 ∧ kkField w ≠ 0x33#8 ∧ kkField w ≠ 0x55#8 ∧ kkField w ≠ 0x65#8)

/-- All that the decoder can do: an instruction whose word it was given, or an error on a listed word. -/
theorem decode_cases (w : Word) :
    (∃ i, decode w = .ok i ∧ encode i = w ∧ i.wellFormed = true) ∨ ((∃ e, decode w = .error e) ∧ IllegalWord w) := by
  unfold decode
  split
  case h_1 hop =>
    split
    · next hcls => exact .inl ⟨_, rfl, hcls.symm, rfl⟩
    · next hcls =>
      split
      · next hret => exact .inl ⟨_, rfl, hret.symm, rfl⟩
      · next hret => exact .inr ⟨⟨_, rfl⟩, .inl ⟨hop, hcls, hret⟩⟩
  case h_2 hop | h_3 hop | h_11 hop | h_12 hop => exact .inl ⟨_, rfl, wordA_of_op hop, rfl⟩
  case h_4 hop | h_5 hop | h_7 hop | h_8 hop | h_13 hop => exact .inl ⟨_, rfl, wordXK_of_op hop, rfl⟩
  case h_6 hop =>
    split
    · next hn => exact .inl ⟨_, rfl, wordXYN_of_op_n hop hn, rfl⟩
    · next hn => exact .inr ⟨⟨_, rfl⟩, .inr (.inl ⟨hop, hn⟩)⟩
  case h_9 hop =>
    split
    case h_10 h0 h1 h2 h3 h4 h5 h6 h7 hE =>
      exact .inr ⟨⟨_, rfl⟩, .inr (.inr (.inl ⟨hop, aluTail_of_ne _ h0 h1 h2 h3 h4 h5 h6 h7 hE⟩))⟩
    all_goals next hn => exact .inl ⟨_, rfl, wordXYN_of_op_n hop hn, rfl⟩
  case h_10 hop =>
    split
    · next hn => exact .inl ⟨_, rfl, wordXYN_of_op_n hop hn, rfl⟩
    · next hn => exact .inr ⟨⟨_, rfl⟩, .inr (.inr (.inr (.inl ⟨hop, hn⟩)))⟩
  case h_14 hop =>
    have hword : wordXYN 0xD#4 (xField w) (yField w) (BitVec.ofNat 4 (nField w).toNat) = w := by
      rw [BitVec.ofNat_toNat, BitVec.setWidth_eq, wordXYN_of_op hop]
    exact .inl ⟨_, rfl, hword, decide_eq_true (Nat.le_of_lt_succ (nField w).isLt)⟩
  case h_15 hop =>
    split
    case h_3 h9E hA1 => exact .inr ⟨⟨_, rfl⟩, .inr (.inr (.inr (.inr (.inl ⟨hop, h9E, hA1⟩))))⟩
    all_goals next hkk => exact .inl ⟨_, rfl, wordXK_of_op_kk hop hkk, rfl⟩
  case h_16 =>
    have hop : opField w = 0xF#4 := by
      generalize opField w = op at *
      revert op
      decide
    split
    case h_10 h07 h0A h15 h18 h1E h29 h33 h55 h65 =>
      exact .inr ⟨⟨_, rfl⟩, .inr (.inr (.inr (.inr (.inr ⟨hop, h07, h0A, h15, h18, h1E, h29, h33, h55, h65⟩))))⟩
    all_goals next hkk => exact .inl ⟨_, rfl, wordXK_of_op_kk hop hkk, rfl⟩

/-- Settles O2: the word of a decoded instruction is rebuilt from the fields its format keeps. -/
theorem encodeOfDecodeGivesWord : Obligations.EncodeOfDecodeGivesWord := by
  intro w i h
  obtain ⟨j, hj, hword⟩ | ⟨⟨e, he⟩, -⟩ := decode_cases w
  · obtain rfl : j = i := Except.ok.inj (hj.symm.trans h)
    exact hword
  · cases he.symm.trans h

/-- No instruction's word is on the list. -/
theorem not_illegalWord_encode {i : Instr} (hwf : i.wellFormed = true) : ¬ IllegalWord (encode i) := by
  cases i with
  | cls | ret => unfold IllegalWord; decide
  | _ => simp [IllegalWord, encode]

theorem decode_error_iff (w : Word) : (∃ e, decode w = .error e) ↔ IllegalWord w := by
  obtain ⟨i, hi, rfl, hwf⟩ | ⟨herror, hillegal⟩ := decode_cases w
  · simp [hi, not_illegalWord_encode hwf]
  · exact iff_of_true herror hillegal

/-- The list as R78 writes it, over the numbers in the fields. -/
theorem illegalWord_iff (w : Word) : IllegalWord w ↔
    (w.toNat / 0x1000 = 0x0 ∧ w.toNat ≠ 0x0E0 ∧ w.toNat ≠ 0x0EE) ∨
    (w.toNat / 0x1000 = 0x5 ∧ w.toNat % 0x10 ≠ 0) ∨
    (w.toNat / 0x1000 = 0x8 ∧ w.toNat % 0x10 ∈ [0x8, 0x9, 0xA, 0xB, 0xC, 0xD, 0xF]) ∨
    (w.toNat / 0x1000 = 0x9 ∧ w.toNat % 0x10 ≠ 0) ∨
    (w.toNat / 0x1000 = 0xE ∧ w.toNat % 0x100 ∉ [0x9E, 0xA1]) ∨
    (w.toNat / 0x1000 = 0xF ∧
      w.toNat % 0x100 ∉ [0x07, 0x0A, 0x15, 0x18, 0x1E, 0x29, 0x33, 0x55, 0x65]) := by
  simp [IllegalWord, ← BitVec.toNat_inj, opField_toNat, nField_toNat, kkField_toNat]

/-- Settles O4: the errors of the decoder are the listed words over their fields. -/
theorem illegalWordsAreExactlyTheListed : Obligations.IllegalWordsAreExactlyTheListed := fun w =>
  (decode_error_iff w).trans (illegalWord_iff w)

/-! ## The opcode table (R75, R76) -/

/-- A table word of format `XY`: its two fixed nibbles in one number, then its registers. -/
theorem decode_ofNat_of_wordXYN {i : Instr} {op n : BitVec 4} {x y : Reg} {base : Nat}
    (hi : encode i = wordXYN op x y n) (hbase : op.toNat * 0x1000 + n.toNat = base) (hwf : i.wellFormed = true) :
    decode (BitVec.ofNat 16 (base + x.val * 0x100 + y.val * 0x10)) = .ok i := by
  rw [← decode_encode i hwf, hi, wordXYN]
  congr 2
  omega

/-- A table word of format `XF`: its fixed nibble and byte in one number, then its register. -/
theorem decode_ofNat_of_wordXK {i : Instr} {op : BitVec 4} {x : Reg} {kk : Byte} {base : Nat}
    (hi : encode i = wordXK op x kk) (hbase : op.toNat * 0x1000 + kk.toNat = base) (hwf : i.wellFormed = true) :
    decode (BitVec.ofNat 16 (base + x.val * 0x100)) = .ok i := by
  rw [← decode_encode i hwf, hi, wordXK]
  congr 2
  omega

theorem decode_ofNat_drw (x y : Reg) {n : Nat} (hn : n ≤ 15) :
    decode (BitVec.ofNat 16 (0xD000 + x.val * 0x100 + y.val * 0x10 + n)) = .ok (.drw x y n) := by
  rw [← decode_encode (.drw x y n) (decide_eq_true hn), encode, wordXYN, BitVec.toNat_ofNat, BitVec.toNat_ofNat]
  congr 2
  omega

/-- Settles O3: each word is the one the encoder writes, so it decodes to its instruction. -/
theorem opcodeTableWordsDecode : Obligations.OpcodeTableWordsDecode := by
  refine ⟨decode_encode .cls rfl, decode_encode .ret rfl, fun nnn => ?formatA, fun x kk => ?formatXK,
    fun x y => ?formatXY, fun x => ?formatXF⟩
  case formatA =>
    exact ⟨decode_encode (.jp nnn) rfl, decode_encode (.call nnn) rfl, decode_encode (.ldI nnn) rfl,
      decode_encode (.jpV0 nnn) rfl⟩
  case formatXK =>
    exact ⟨decode_encode (.seImm x kk) rfl, decode_encode (.sneImm x kk) rfl, decode_encode (.ldImm x kk) rfl,
      decode_encode (.addImm x kk) rfl, decode_encode (.rnd x kk) rfl⟩
  case formatXY =>
    exact ⟨decode_ofNat_of_wordXYN (i := .seReg x y) rfl rfl rfl,
      decode_ofNat_of_wordXYN (i := .ldReg x y) rfl rfl rfl,
      decode_ofNat_of_wordXYN (i := .orReg x y) rfl rfl rfl,
      decode_ofNat_of_wordXYN (i := .andReg x y) rfl rfl rfl,
      decode_ofNat_of_wordXYN (i := .xorReg x y) rfl rfl rfl,
      decode_ofNat_of_wordXYN (i := .addReg x y) rfl rfl rfl,
      decode_ofNat_of_wordXYN (i := .subReg x y) rfl rfl rfl,
      decode_ofNat_of_wordXYN (i := .shr x y) rfl rfl rfl,
      decode_ofNat_of_wordXYN (i := .subnReg x y) rfl rfl rfl,
      decode_ofNat_of_wordXYN (i := .shl x y) rfl rfl rfl,
      decode_ofNat_of_wordXYN (i := .sneReg x y) rfl rfl rfl,
      fun n => decode_ofNat_drw x y⟩
  case formatXF =>
    exact ⟨decode_ofNat_of_wordXK (i := .skp x) rfl rfl rfl,
      decode_ofNat_of_wordXK (i := .sknp x) rfl rfl rfl,
      decode_ofNat_of_wordXK (i := .ldVxDT x) rfl rfl rfl,
      decode_ofNat_of_wordXK (i := .ldVxK x) rfl rfl rfl,
      decode_ofNat_of_wordXK (i := .ldDTVx x) rfl rfl rfl,
      decode_ofNat_of_wordXK (i := .ldSTVx x) rfl rfl rfl,
      decode_ofNat_of_wordXK (i := .addI x) rfl rfl rfl,
      decode_ofNat_of_wordXK (i := .ldF x) rfl rfl rfl,
      decode_ofNat_of_wordXK (i := .ldB x) rfl rfl rfl,
      decode_ofNat_of_wordXK (i := .ldMemVx x) rfl rfl rfl,
      decode_ofNat_of_wordXK (i := .ldVxMem x) rfl rfl rfl⟩

/-- Settles O5: six closed words. -/
theorem sampleWordsDecode : Obligations.SampleWordsDecode := by
  unfold Obligations.SampleWordsDecode
  decide

/-! ## The assembler's spellings (R81) -/

theorem assemble_assembly (i : Instr) (hwf : i.wellFormed = true) : assemble i.assembly.1 i.assembly.2 = some i := by
  cases i with
  | drw x y n => exact if_pos (of_decide_eq_true hwf)
  | _ => rfl

/-- What assembles is the instruction's own spelling, or that of a shift without its `Vy`. -/
theorem assemble_eq_some {m : Mnemonic} {ops : List Operand} {i : Instr} (h : assemble m ops = some i) :
    i.wellFormed = true ∧
    ((m, ops) = i.assembly ∨ (∃ x, m = .SHR ∧ ops = [.v x] ∧ i = .shr x 0) ∨
      (∃ x, m = .SHL ∧ ops = [.v x] ∧ i = .shl x 0)) := by
  unfold assemble at h
  split at h
  case h_4 =>
    split at h
    · next hx => cases h; exact ⟨rfl, .inl (by rw [hx]; rfl)⟩
    · cases h
  case h_34 =>
    split at h
    · next hn => cases h; exact ⟨decide_eq_true hn, .inl rfl⟩
    · cases h
  case h_29 => cases h; exact ⟨rfl, .inr (.inl ⟨_, rfl, rfl, rfl⟩)⟩
  case h_32 => cases h; exact ⟨rfl, .inr (.inr ⟨_, rfl, rfl, rfl⟩)⟩
  all_goals cases h
  all_goals exact ⟨rfl, .inl rfl⟩

/-- Settles O6: assembling a spelling gives its instruction, and nothing else but a shift without `Vy` assembles. -/
theorem assemblySpellsOneInstruction : Obligations.AssemblySpellsOneInstruction :=
  ⟨assemble_assembly, fun _ _ _ => assemble_eq_some⟩

end Sys2Proof

/-! # All that an instruction can do: how it ends, and the frame of its next state (40_sequencer.md R107, R108) -/

namespace Sys2Proof.Machine

/-! ## The instructions with more than one outcome, one lemma each -/

/-- A skip is one write of `pc`. -/
theorem skipIf_eq (c : Bool) (s : State) :
    skipIf c s = .next (s.setPc (if c = true then s.pc + 2#16 else s.pc)) := by
  cases c <;> rfl

theorem execRet_cases (s : State) :
    (∃ a u, s.pop = some (a, u) ∧ execRet s = .next (u.setPc a)) ∨
    (s.sp.val = 0 ∧ execRet s = .fault .stackUnderflow) := by
  unfold execRet
  cases hpop : s.pop with
  | some r => exact .inl ⟨r.1, r.2, rfl, rfl⟩
  | none => exact .inr ⟨State.pop_eq_none.1 hpop, rfl⟩

theorem execCall_cases (nnn : Addr) (s : State) :
    (∃ u, s.push s.pc = some u ∧ execCall nnn s = .next (u.setPc (addr16 nnn))) ∨
    (s.sp.val = 16 ∧ execCall nnn s = .fault .stackOverflow) := by
  unfold execCall
  cases hpush : s.push s.pc with
  | some u => exact .inl ⟨u, rfl, rfl⟩
  | none => exact .inr ⟨State.push_eq_none.1 hpush, rfl⟩

theorem execDrw_cases (x y : Reg) (n : Nat) (s : State) :
    ((n = 0 ∨ s.i.toNat + n ≤ 0x1000) ∧ execDrw x y n s = .next (s.drawSprite x y n)) ∨
    (n ≠ 0 ∧ 0x1000 < s.i.toNat + n ∧ execDrw x y n s = .fault .outOfBoundsAccess) := by
  by_cases hin : n = 0 ∨ s.i.toNat + n ≤ 0x1000
  · exact .inl ⟨hin, exec_drw_in_memory ((rangeInMemory_iff _ _).2 hin) x y⟩
  · have hpast := exec_drw_past_memory (mt (rangeInMemory_iff _ _).1 hin) x y
    exact .inr ⟨by omega, by omega, hpast⟩

theorem execLdVxK_cases (x : Reg) (s : State) :
    (∃ k : Key, s.leastKey = some k ∧ execLdVxK x s = .next (s.setV x (BitVec.ofNat 8 k.val))) ∨
    (s.leastKey = none ∧ execLdVxK x s = .next s.park) := by
  unfold execLdVxK
  cases s.leastKey with
  | some k => exact .inl ⟨k, rfl, rfl⟩
  | none => exact .inr ⟨rfl, rfl⟩

theorem execLdB_cases (x : Reg) (s : State) :
    (s.i.toNat + 2 ≤ 0xFFF ∧ execLdB x s = .next (s.storeBytes s.i.toNat (decimalDigits (s.getV x)))) ∨
    (0xFFF < s.i.toNat + 2 ∧ execLdB x s = .fault .outOfBoundsAccess) := by
  obtain ⟨hin, hnext⟩ | ⟨-, hpast, hfault⟩ := s.storeAtI_cases (decimalDigits (s.getV x))
  · exact .inl ⟨by simpa [decimalDigits] using hin, hnext⟩
  · rw [decimalDigits_length] at hpast
    exact .inr ⟨by omega, hfault⟩

theorem execLdMemVx_cases (x : Reg) (s : State) :
    (s.i.toNat + x.val ≤ 0xFFF ∧ execLdMemVx x s = .next (s.storeBytes s.i.toNat (s.firstRegs x))) ∨
    (0xFFF < s.i.toNat + x.val ∧ execLdMemVx x s = .fault .outOfBoundsAccess) := by
  have hlen := s.firstRegs_length x
  obtain ⟨hin, hnext⟩ | ⟨-, hpast, hfault⟩ := s.storeAtI_cases (s.firstRegs x)
  · exact .inl ⟨by rw [← List.length_eq_zero_iff] at hin; omega, hnext⟩
  · exact .inr ⟨by omega, hfault⟩

theorem execLdVxMem_cases (x : Reg) (s : State) :
    (s.i.toNat + x.val ≤ 0xFFF ∧ execLdVxMem x s = .next (s.loadV x fun j => s.byteAt (s.i.toNat + j))) ∨
    (0xFFF < s.i.toNat + x.val ∧ execLdVxMem x s = .fault .outOfBoundsAccess) := by
  unfold execLdVxMem
  split
  · next hin =>
    rw [rangeInMemory_iff] at hin
    exact .inl ⟨by omega, rfl⟩
  · next hpast =>
    rw [rangeInMemory_iff] at hpast
    exact .inr ⟨by omega, rfl⟩

/-! ## How an instruction ends (R108, D37) -/

/-- The error of the one check an instruction has, with the condition of that check. -/
def RaisesOwnError (i : Instr) (s : State) (e : Fault) : Prop :=
  ((∃ nnn, i = .call nnn) ∧ e = .stackOverflow ∧ s.sp.val = 16) ∨
  (i = .ret ∧ e = .stackUnderflow ∧ s.sp.val = 0) ∨
  ((∃ x y n, i = .drw x y n ∧ n ≠ 0 ∧ 0x1000 < s.i.toNat + n) ∧ e = .outOfBoundsAccess) ∨
  ((∃ x, i = .ldB x) ∧ e = .outOfBoundsAccess ∧ 0xFFF < s.i.toNat + 2) ∨
  ((∃ x : Reg, (i = .ldMemVx x ∨ i = .ldVxMem x) ∧ 0xFFF < s.i.toNat + x.val) ∧ e = .outOfBoundsAccess)

/-- Every instruction completes or raises its own error. -/
theorem exec_completes_or_raises (i : Instr) (s : State) :
    (∃ t, exec i s = .next t) ∨ ∃ e, exec i s = .fault e ∧ RaisesOwnError i s e := by
  cases i with
  | call nnn =>
    obtain ⟨u, -, hnext⟩ | ⟨hsp, hfault⟩ := execCall_cases nnn s
    · exact .inl ⟨_, hnext⟩
    · exact .inr ⟨_, hfault, .inl ⟨⟨nnn, rfl⟩, rfl, hsp⟩⟩
  | ret =>
    obtain ⟨a, u, -, hnext⟩ | ⟨hsp, hfault⟩ := execRet_cases s
    · exact .inl ⟨_, hnext⟩
    · exact .inr ⟨_, hfault, .inr (.inl ⟨rfl, rfl, hsp⟩)⟩
  | drw x y n =>
    obtain ⟨-, hnext⟩ | ⟨hn, hpast, hfault⟩ := execDrw_cases x y n s
    · exact .inl ⟨_, hnext⟩
    · exact .inr ⟨_, hfault, .inr (.inr (.inl ⟨⟨x, y, n, rfl, hn, hpast⟩, rfl⟩))⟩
  | ldB x =>
    obtain ⟨-, hnext⟩ | ⟨hpast, hfault⟩ := execLdB_cases x s
    · exact .inl ⟨_, hnext⟩
    · exact .inr ⟨_, hfault, .inr (.inr (.inr (.inl ⟨⟨x, rfl⟩, rfl, hpast⟩)))⟩
  | ldMemVx x =>
    obtain ⟨-, hnext⟩ | ⟨hpast, hfault⟩ := execLdMemVx_cases x s
    · exact .inl ⟨_, hnext⟩
    · exact .inr ⟨_, hfault, .inr (.inr (.inr (.inr ⟨⟨x, .inl rfl, hpast⟩, rfl⟩)))⟩
  | ldVxMem x =>
    obtain ⟨-, hnext⟩ | ⟨hpast, hfault⟩ := execLdVxMem_cases x s
    · exact .inl ⟨_, hnext⟩
    · exact .inr ⟨_, hfault, .inr (.inr (.inr (.inr ⟨⟨x, .inr rfl, hpast⟩, rfl⟩)))⟩
  | ldVxK x =>
    obtain ⟨k, -, hnext⟩ | ⟨-, hnext⟩ := execLdVxK_cases x s
    · exact .inl ⟨_, hnext⟩
    · exact .inl ⟨_, hnext⟩
  | _ => exact .inl ⟨_, rfl⟩

/-- Settles O11: an instruction that faults does not complete, so it raises its own error. -/
theorem instructionsRaiseOnlyTheirOwnError : Obligations.InstructionsRaiseOnlyTheirOwnError := by
  intro i s e h
  obtain ⟨t, hnext⟩ | ⟨e', hfault, hown⟩ := exec_completes_or_raises i s
  · cases hnext.symm.trans h
  · obtain rfl : e' = e := Host.Outcome.fault.inj (hfault.symm.trans h)
    exact hown

/-- Settles O12: completing and raising are the only two outcomes. -/
theorem noInstructionIsRefused : Obligations.NoInstructionIsRefused := by
  intro i s r h
  obtain ⟨t, hnext⟩ | ⟨e, hfault, -⟩ := exec_completes_or_raises i s
  · cases hnext.symm.trans h
  · cases hfault.symm.trans h

/-! ## What the next state leaves as it was -/

section
variable {s t : State}

/-- The bytes of a memory out of canonical form, which no run reaches: there a store may move any of them. -/
def State.strayByte (s : State) (p : Part) : Prop := Memory.wf s.mem ≠ true ∧ ∃ a, p = .mem a

theorem State.not_strayByte_of_wf (hwf : Memory.wf s.mem = true) (p : Part) : ¬ s.strayByte p := fun h => h.1 hwf

/-- Two changes one after the other, the later one named first. -/
theorem OnlyChanges.trans_or {u : State} {c d : Part → Prop} (h : OnlyChanges s t c) (k : OnlyChanges t u d) :
    OnlyChanges s u fun p => d p ∨ c p :=
  (h.mono fun _ => .inr).trans (k.mono fun _ => .inl)

/-- An answer known to be `u` changes what `u` changes. -/
theorem onlyChanges_of_next_eq {u : State} {c d : Part → Prop} (h : (.next u : Result) = .next t)
    (hu : OnlyChanges s u c) : OnlyChanges s t fun p => c p ∨ d p :=
  Host.Outcome.next.inj h ▸ hu.mono fun _ => .inl

theorem State.storeBytes_onlyChanges_or_stray {a : Nat} {bs : List Byte} (hin : bs = [] ∨ a + bs.length ≤ 4096) :
    OnlyChanges s (s.storeBytes a bs) fun p => (∃ j, j < bs.length ∧ p = .mem (a + j)) ∨ s.strayByte p := by
  by_cases hwf : Memory.wf s.mem = true
  · exact (State.storeBytes_onlyChanges hwf hin).mono fun _ => .inl
  · exact fun p hp => s.value_storeBytes_other a bs p fun c hc => hp (.inr ⟨hwf, c, hc⟩)

theorem State.drawSprite_onlyChanges (x y : Reg) (n : Nat) :
    OnlyChanges s (s.drawSprite x y n) fun p => p = .v VF ∨ ∃ px py, p = .pixel px py :=
  have hpixels := s.setFB_onlyChanges (s.blitSprite x y n).1
  have hflag := (s.setFB (s.blitSprite x y n).1).setV_onlyChanges VF (flagByte (s.blitSprite x y n).2)
  hpixels.trans_or hflag

theorem execRet_onlyChanges (h : execRet s = .next t) : OnlyChanges s t fun p => p = .pc ∨ p = .sp := by
  obtain ⟨a, u, hpop, hnext⟩ | ⟨-, hfault⟩ := execRet_cases s
  · obtain rfl := Host.Outcome.next.inj (hnext.symm.trans h)
    exact (State.pop_onlyChanges hpop).trans_or (u.setPc_onlyChanges a)
  · cases hfault.symm.trans h

theorem execCall_onlyChanges {nnn : Addr} (h : execCall nnn s = .next t) :
    OnlyChanges s t fun p => p = .pc ∨ p = .sp ∨ ∃ j : Fin 16, j.val = s.sp.val ∧ p = .stack j := by
  obtain ⟨u, hpush, hnext⟩ | ⟨-, hfault⟩ := execCall_cases nnn s
  · obtain rfl := Host.Outcome.next.inj (hnext.symm.trans h)
    exact (State.push_onlyChanges hpush).trans_or (u.setPc_onlyChanges (addr16 nnn))
  · cases hfault.symm.trans h

theorem State.countDraw_onlyChanges (s : State) : OnlyChanges s s.countDraw (· = .draws) := fun p hp => by
  simp [State.value_countDraw, hp]

theorem execRnd_onlyChanges {x : Reg} {kk : Byte} (h : execRnd x kk s = .next t) :
    OnlyChanges s t fun p => p = .v x ∨ p = .draws := by
  obtain rfl := Host.Outcome.next.inj h
  exact s.countDraw_onlyChanges.trans_or (s.countDraw.setV_onlyChanges x _)

theorem execDrw_onlyChanges {x y : Reg} {n : Nat} (h : execDrw x y n s = .next t) :
    OnlyChanges s t fun p => p = .v VF ∨ ∃ px py, p = .pixel px py := by
  obtain ⟨-, hnext⟩ | ⟨-, -, hfault⟩ := execDrw_cases x y n s
  · obtain rfl := Host.Outcome.next.inj (hnext.symm.trans h)
    exact State.drawSprite_onlyChanges x y n
  · cases hfault.symm.trans h

theorem execLdVxK_onlyChanges {x : Reg} (h : execLdVxK x s = .next t) :
    OnlyChanges s t fun p => p = .v x ∨ p = .pc := by
  obtain ⟨k, -, hnext⟩ | ⟨-, hnext⟩ := execLdVxK_cases x s
  · obtain rfl := Host.Outcome.next.inj (hnext.symm.trans h)
    exact (s.setV_onlyChanges x _).mono fun _ => .inl
  · obtain rfl := Host.Outcome.next.inj (hnext.symm.trans h)
    exact (s.setPc_onlyChanges _).mono fun _ => .inr

theorem execLdVxMem_onlyChanges {x : Reg} (h : execLdVxMem x s = .next t) :
    OnlyChanges s t fun p => ∃ r : Reg, r ≤ x ∧ p = .v r := by
  obtain ⟨-, hnext⟩ | ⟨-, hfault⟩ := execLdVxMem_cases x s
  · obtain rfl := Host.Outcome.next.inj (hnext.symm.trans h)
    exact s.loadV_onlyChanges x _
  · cases hfault.symm.trans h

theorem State.storeAtI_onlyChanges {bs : List Byte} (h : s.storeAtI bs = .next t) :
    OnlyChanges s t fun p => (∃ j, j < bs.length ∧ p = .mem (s.i.toNat + j)) ∨ s.strayByte p := by
  obtain ⟨hin, hnext⟩ | ⟨-, -, hfault⟩ := s.storeAtI_cases bs
  · obtain rfl := Host.Outcome.next.inj (hnext.symm.trans h)
    exact State.storeBytes_onlyChanges_or_stray hin
  · cases hfault.symm.trans h

theorem execLdMemVx_onlyChanges {x : Reg} (h : execLdMemVx x s = .next t) :
    OnlyChanges s t fun p => (∃ j, j ≤ x.val ∧ p = .mem (s.i.toNat + j)) ∨ s.strayByte p := by
  have hframe := State.storeAtI_onlyChanges h
  simpa only [State.firstRegs_length, Nat.lt_succ_iff] using hframe

/-- The frame of every instruction, in every state. -/
theorem exec_onlyChanges {i : Instr} (h : exec i s = .next t) :
    OnlyChanges s t fun p => s.mayWrite i p ∨ s.strayByte p := by
  cases i with
  | cls => exact onlyChanges_of_next_eq h (s.setFB_onlyChanges _)
  | ret => exact (execRet_onlyChanges h).mono fun _ => .inl
  | call => exact (execCall_onlyChanges h).mono fun _ => .inl
  | jp | jpV0 => exact onlyChanges_of_next_eq h (s.setPc_onlyChanges _)
  | seImm | sneImm | seReg | sneReg | skp | sknp =>
    exact onlyChanges_of_next_eq ((skipIf_eq _ s).symm.trans h) (s.setPc_onlyChanges _)
  | ldImm | addImm | ldReg | orReg | andReg | xorReg | ldVxDT =>
    exact onlyChanges_of_next_eq h (s.setV_onlyChanges _ _)
  | addReg | subReg | shr | subnReg | shl => exact onlyChanges_of_next_eq h (s.setVFlag_onlyChanges _ _ _)
  | ldI | addI | ldF => exact onlyChanges_of_next_eq h (s.setI_onlyChanges _)
  | rnd => exact (execRnd_onlyChanges h).mono fun _ => .inl
  | drw => exact (execDrw_onlyChanges h).mono fun _ => .inl
  | ldVxK => exact (execLdVxK_onlyChanges h).mono fun _ => .inl
  | ldDTVx => exact onlyChanges_of_next_eq h (s.setDT_onlyChanges _)
  | ldSTVx => exact onlyChanges_of_next_eq h (s.setST_onlyChanges _)
  | ldB => exact State.storeAtI_onlyChanges h
  | ldMemVx => exact execLdMemVx_onlyChanges h
  | ldVxMem => exact (execLdVxMem_onlyChanges h).mono fun _ => .inl

end

/-- Settles O43: a canonical memory has no stray byte. -/
theorem instructionsWriteOnlyTheirParts : Obligations.InstructionsWriteOnlyTheirParts := fun _ s _ hwf h =>
  (exec_onlyChanges h).mono fun p hp => hp.resolve_right (s.not_strayByte_of_wf hwf p)

/-- A changed part is one the instruction may write, but for the bytes of memory. -/
theorem State.mayWrite_of_value_ne {i : Instr} {s t : State} {p : Part} (h : exec i s = .next t)
    (hp : ∀ a, p ≠ .mem a) (hne : t.value p ≠ s.value p) : s.mayWrite i p := by
  by_contra hw
  exact hne (exec_onlyChanges h p fun hc => hc.elim hw fun ⟨_, a, ha⟩ => hp a ha)

/-- The instructions that may write `VF`: the six flag writers, and those whose destination it is. -/
theorem State.mayWrite_flag {i : Instr} {s : State} (hw : s.mayWrite i (.v VF)) :
    (∃ x y, i = .addReg x y ∨ i = .subReg x y ∨ i = .subnReg x y ∨ i = .shr x y ∨ i = .shl x y) ∨
    (∃ x y n, i = .drw x y n) ∨
    (∃ kk, i = .ldImm VF kk ∨ i = .addImm VF kk ∨ i = .rnd VF kk) ∨
    (∃ y, i = .ldReg VF y ∨ i = .orReg VF y ∨ i = .andReg VF y ∨ i = .xorReg VF y) ∨
    i = .ldVxDT VF ∨ i = .ldVxK VF ∨ i = .ldVxMem VF := by
  cases i with
  | ldVxMem x =>
    obtain ⟨r, hrx, hr⟩ := hw
    obtain rfl := Part.v.inj hr
    obtain rfl : x = VF := le_antisymm (Fin.le_last x) hrx
    simp
  | _ => simp_all [State.mayWrite, eq_comm]

/-- Settles O27: a changed `VF` is one the instruction may write. -/
theorem onlyFlagWritersChangeFlag : Obligations.OnlyFlagWritersChangeFlag := fun _ _ _ h hne =>
  State.mayWrite_flag <|
    State.mayWrite_of_value_ne h (fun _ => Part.noConfusion) fun heq => hne (BitVec.eq_of_toNat_eq heq)

end Sys2Proof.Machine

/-! # The step and the invariant of every run (40_sequencer.md R100 to R106) -/

namespace Sys2Proof.Machine

/-! ## The fetched instruction -/

theorem State.pc_le_of_fetch {s : State} {w : Word} (hf : s.fetch = some w) : s.pc.toNat ≤ 0xFFE := by
  by_contra hpc
  cases (State.fetch_eq_none.2 (Nat.lt_of_not_le hpc)).symm.trans hf

theorem State.fetched_eq_some {s : State} {i : Instr} :
    s.fetched = some i ↔ ∃ w, s.fetch = some w ∧ decode w = .ok i := by
  refine ⟨fun h => ?_, fun ⟨w, hf, hd⟩ => State.fetched_of_decode hf hd⟩
  unfold State.fetched at h
  split at h
  · cases h
  · next w hf =>
    refine ⟨w, hf, ?_⟩
    cases hd : decode w with
    | error e => rw [hd] at h; cases h
    | ok j => rw [hd] at h; exact congrArg Except.ok (Option.some.inj h)

theorem State.pc_le_of_fetched {s : State} {i : Instr} (h : s.fetched = some i) : s.pc.toNat ≤ 0xFFE := by
  obtain ⟨w, hf, -⟩ := State.fetched_eq_some.1 h
  exact State.pc_le_of_fetch hf

/-- A cycle runs the fetched instruction in the advanced state. -/
theorem State.cycle_of_fetched {s : State} {i : Instr} (h : s.fetched = some i) (run : Instr → State → Result) :
    s.cycle run = run i s.advance := by
  obtain ⟨w, hf, hd⟩ := State.fetched_eq_some.1 h
  simp [State.cycle, hf, hd]

/-- Without a fetched instruction a cycle faults, whatever the execution. -/
theorem State.cycle_of_not_fetched {s : State} (h : s.fetched = none) :
    ∃ e, ∀ run : Instr → State → Result, s.cycle run = .fault e := by
  cases hf : s.fetch with
  | none => exact ⟨.outOfBoundsAccess, fun run => by simp [State.cycle, hf, raise]⟩
  | some w =>
    cases hd : decode w with
    | error e => exact ⟨.unknownOpcode, State.cycle_of_decode_error hf hd⟩
    | ok i => cases h.symm.trans (State.fetched_of_decode hf hd)

theorem step_of_fetched {s : State} {i : Instr} (h : s.fetched = some i) : step s = exec i s.advance :=
  State.cycle_of_fetched h exec

/-- A step that completes has run the fetched instruction. -/
theorem step_eq_next {s t : State} (h : step s = .next t) :
    ∃ i, s.fetched = some i ∧ exec i s.advance = .next t := by
  cases hi : s.fetched with
  | some i => exact ⟨i, rfl, (step_of_fetched hi).symm.trans h⟩
  | none =>
    obtain ⟨e, he⟩ := State.cycle_of_not_fetched hi
    cases (he exec).symm.trans h

/-- Settles O7: the two bytes are the fetched word, and the advance is the one change of `pc`. -/
theorem stepRunsTheDecodedInstruction : Obligations.StepRunsTheDecodedInstruction := by
  intro s w i hpc hw hd
  exact step_of_fetched (State.fetched_of_decode (State.fetch_of_bytes hpc hw) hd)

/-- Settles O8: no fetch succeeds from 0xFFF on, and the error of a failed fetch keeps the state. -/
theorem fetchPastTopLeavesStateUnchanged : Obligations.FetchPastTopLeavesStateUnchanged := by
  intro s rnd hpc
  have hf : s.fetch = none := State.fetch_eq_none.2 hpc
  have hcycle : ∀ run, s.cycle run = .fault .outOfBoundsAccess := fun run => by simp [State.cycle, hf, raise]
  refine ⟨hcycle exec, ?_⟩
  rw [State.executeInstruction_of_fault (hcycle _), State.afterError_of_no_fetch hf]
  rfl

/-! ## The invariant (R106) -/

section
variable {s t : State}

theorem Inv.of_next_eq {u : State} (hu : Inv u) (h : (.next u : Result) = .next t) : Inv t :=
  Host.Outcome.next.inj h ▸ hu

/-- A state with the same memory, `pc` and stack meets the invariant too. -/
theorem Inv.of_same (hs : Inv s) (hmem : t.mem = s.mem) (hpc : t.pc = s.pc) (hsp : t.sp = s.sp)
    (hstack : t.stack = s.stack) : Inv t :=
  ⟨hmem ▸ hs.mem_wf, hpc ▸ hs.pc_le, by rw [hsp, hstack]; exact hs.stack_le⟩

theorem Inv.setPc (hs : Inv s) {a : Word} (ha : a.toNat ≤ 0x10FE) : Inv (s.setPc a) :=
  ⟨hs.mem_wf, ha, hs.stack_le⟩

theorem Inv.storeBytes (hs : Inv s) {a : Nat} {bs : List Byte} (hin : bs = [] ∨ a + bs.length ≤ 4096) :
    Inv (s.storeBytes a bs) :=
  ⟨Memory.writeBytes_wf hs.mem_wf hin, hs.pc_le, hs.stack_le⟩

theorem Inv.push (hs : Inv s) {a : Word} (ha : a.toNat ≤ 0x1000) (h : s.push a = some t) : Inv t := by
  obtain ⟨-, rfl⟩ := State.push_eq_some.1 h
  refine ⟨hs.mem_wf, hs.pc_le, fun j hj => ?_⟩
  by_cases hjs : s.sp.val = j.val
  · simpa [hjs] using ha
  · have hlt : j.val < s.sp.val + 1 := hj
    have hlive : j.val < s.sp.val := by omega
    simpa [hjs] using hs.stack_le j hlive

/-- The popped address was live, and what stays live was. -/
theorem Inv.pop (hs : Inv s) {a : Word} (h : s.pop = some (a, t)) : Inv t ∧ a.toNat ≤ 0x1000 := by
  obtain ⟨hsp, rfl, rfl⟩ := State.pop_eq_some.1 h
  have htop := hs.stack_le ⟨s.sp.val - 1, by omega⟩ (Nat.sub_lt hsp Nat.one_pos)
  exact ⟨⟨hs.mem_wf, hs.pc_le, fun j hj => hs.stack_le j (Nat.lt_of_lt_pred hj)⟩, htop⟩

theorem Inv.storeAtI (hs : Inv s) {bs : List Byte} (h : s.storeAtI bs = .next t) : Inv t := by
  obtain ⟨hin, hnext⟩ | ⟨-, -, hfault⟩ := s.storeAtI_cases bs
  · exact (hs.storeBytes hin).of_next_eq (hnext.symm.trans h)
  · cases hfault.symm.trans h

theorem Inv.execRet (hs : Inv s) (h : execRet s = .next t) : Inv t := by
  obtain ⟨a, u, hpop, hnext⟩ | ⟨-, hfault⟩ := execRet_cases s
  · obtain ⟨hu, ha⟩ := hs.pop hpop
    exact (hu.setPc (by omega)).of_next_eq (hnext.symm.trans h)
  · cases hfault.symm.trans h

theorem addr16_toNat_lt (nnn : Addr) : (addr16 nnn).toNat < 0x1000 := by
  rw [addr16_toNat]
  exact nnn.isLt

theorem Inv.execCall (hs : Inv s) (hpc : s.pc.toNat ≤ 0x1000) {nnn : Addr} (h : execCall nnn s = .next t) : Inv t := by
  obtain ⟨u, hpush, hnext⟩ | ⟨-, hfault⟩ := execCall_cases nnn s
  · have htarget := addr16_toNat_lt nnn
    exact ((hs.push hpc hpush).setPc (by omega)).of_next_eq (hnext.symm.trans h)
  · cases hfault.symm.trans h

theorem Inv.skipIf (hs : Inv s) (hpc : s.pc.toNat ≤ 0x1000) {c : Bool} (h : skipIf c s = .next t) : Inv t := by
  rw [skipIf_eq] at h
  refine (hs.setPc ?_).of_next_eq h
  split <;> bv_omega

theorem Inv.execJpV0 (hs : Inv s) {nnn : Addr} (h : execJpV0 nnn s = .next t) : Inv t := by
  have htarget := addr16_toNat_lt nnn
  have hoffset := (s.getV 0).isLt
  have hsum : (addr16 nnn + byte16 (s.getV 0)).toNat ≤ 0x10FE := by
    rw [BitVec.toNat_add, byte16_toNat]
    omega
  exact (hs.setPc hsum).of_next_eq h

theorem Inv.execLdVxK (hs : Inv s) (hlo : 2 ≤ s.pc.toNat) {x : Reg} (h : execLdVxK x s = .next t) : Inv t := by
  obtain ⟨k, -, hnext⟩ | ⟨-, hnext⟩ := execLdVxK_cases x s
  · obtain rfl := Host.Outcome.next.inj (hnext.symm.trans h)
    exact hs.of_same rfl rfl rfl rfl
  · have hpc := hs.pc_le
    have hback : (s.pc - 2#16).toNat ≤ 0x10FE := by bv_omega
    exact (hs.setPc hback).of_next_eq (hnext.symm.trans h)

theorem Inv.execDrw (hs : Inv s) {x y : Reg} {n : Nat} (h : execDrw x y n s = .next t) : Inv t := by
  obtain ⟨-, hnext⟩ | ⟨-, -, hfault⟩ := execDrw_cases x y n s
  · obtain rfl := Host.Outcome.next.inj (hnext.symm.trans h)
    exact hs.of_same rfl rfl rfl rfl
  · cases hfault.symm.trans h

theorem Inv.execLdVxMem (hs : Inv s) {x : Reg} (h : execLdVxMem x s = .next t) : Inv t := by
  obtain ⟨-, hnext⟩ | ⟨-, hfault⟩ := execLdVxMem_cases x s
  · obtain rfl := Host.Outcome.next.inj (hnext.symm.trans h)
    exact hs.of_same (s.loadV_mem x _) (s.loadV_pc x _) (s.loadV_sp x _) (s.loadV_stack x _)
  · cases hfault.symm.trans h

/-- Every instruction keeps the invariant where `pc` is the address after an instruction in memory. -/
theorem Inv.exec (hs : Inv s) (hlo : 2 ≤ s.pc.toNat) (hpc : s.pc.toNat ≤ 0x1000) {i : Instr}
    (h : exec i s = .next t) : Inv t := by
  cases i with
  | ret => exact hs.execRet h
  | call => exact hs.execCall hpc h
  | jp nnn =>
    have htarget := addr16_toNat_lt nnn
    exact (hs.setPc (by omega)).of_next_eq h
  | jpV0 => exact hs.execJpV0 h
  | seImm | sneImm | seReg | sneReg | skp | sknp => exact hs.skipIf hpc h
  | drw => exact hs.execDrw h
  | ldVxK => exact hs.execLdVxK hlo h
  | ldB | ldMemVx => exact hs.storeAtI h
  | ldVxMem => exact hs.execLdVxMem h
  | _ =>
    obtain rfl := Host.Outcome.next.inj h
    exact hs.of_same rfl rfl rfl rfl

theorem Inv.execWith (hs : Inv s) (hlo : 2 ≤ s.pc.toNat) (hpc : s.pc.toNat ≤ 0x1000) {rnd : Byte} {i : Instr}
    (h : execWith rnd i s = .next t) : Inv t := by
  obtain hexec | ⟨x, kk, -, hrnd⟩ := execWith_cases rnd i s
  · exact hs.exec hlo hpc (hexec.symm.trans h)
  · obtain rfl := Host.Outcome.next.inj (hrnd.symm.trans h)
    exact hs.of_same rfl rfl rfl rfl

theorem Inv.advance (hs : Inv s) (hpc : s.pc.toNat ≤ 0xFFE) : Inv s.advance := by
  have hadvance : (s.pc + 2#16).toNat = s.pc.toNat + 2 := State.advance_pc_toNat hpc
  exact hs.setPc (by omega)

/-- Settles O46: the fetch bounds `pc` before the advance, and every instruction keeps the invariant after it. -/
theorem runInvariantIsKeptByEveryStep : Obligations.RunInvariantIsKeptByEveryStep := by
  intro s t hs h
  obtain ⟨i, hi, hexec⟩ := step_eq_next h
  have hpc := State.pc_le_of_fetched hi
  have hadvance := State.advance_pc_toNat hpc
  exact (hs.advance hpc).exec (by omega) (by omega) hexec

/-- Settles O45: the memory lists no byte and the stack holds no live entry. -/
theorem runInvariantHoldsAtReset : Obligations.RunInvariantHoldsAtReset :=
  ⟨rfl, by decide, fun j hj => absurd hj (Nat.not_lt_zero j.val)⟩

/-! ## The invariant under the host transactions (60_exceptions.md R250) -/

theorem Inv.afterError (hs : Inv s) : Inv s.afterError := by
  by_cases hpc : s.pc.toNat ≤ 0xFFE
  · rw [State.afterError_of_pc_le hpc]
    exact hs.advance hpc
  · rw [State.afterError_of_no_fetch (State.fetch_eq_none.2 (Nat.lt_of_not_le hpc))]
    exact hs

theorem Inv.executeInstruction (hs : Inv s) (rnd : Byte) : Inv (s.executeInstruction rnd).2 := by
  obtain herror | ⟨i, hi, hrun⟩ := s.executeInstruction_state_cases rnd
  · rw [herror]
    exact hs.afterError
  · have hpc := State.pc_le_of_fetched hi
    have hadvance := State.advance_pc_toNat hpc
    exact (hs.advance hpc).execWith (by omega) (by omega) hrun

theorem Inv.load (hs : Inv s) (rom : List Byte) : Inv (s.load rom).2 := by
  rcases Nat.lt_or_ge (4096 - 0x200) rom.length with hlong | hfits
  · rw [s.load_of_too_long hlong]
    exact hs
  · rw [s.load_of_fits hfits]
    exact hs.storeBytes (.inr (by omega))

theorem Inv.setKey (hs : Inv s) (code : Nat) (pressed : Bool) : Inv (s.setKey code pressed) := by
  unfold State.setKey
  split
  · exact hs.of_same rfl rfl rfl rfl
  · exact hs

theorem Inv.call (hs : Inv s) (c : HostCall) : Inv (s.call c).2 := by
  cases c with
  | reset => exact runInvariantHoldsAtReset.of_same rfl rfl rfl rfl
  | load rom => exact hs.load rom
  | executeInstruction rnd => exact hs.executeInstruction rnd
  | tickTimers => exact hs.of_same rfl rfl rfl rfl
  | getDisplay => exact hs
  | setKey code pressed => exact hs.setKey code pressed

end

/-- Settles O47, by induction on the schedule. -/
theorem runInvariantIsKeptByEverySchedule : Obligations.RunInvariantIsKeptByEverySchedule := by
  intro cs
  induction cs with
  | nil => exact fun _ hs => hs
  | cons c cs ih => exact fun s hs => ih (s.call c).2 (hs.call c)

/-! ## The random input (10_state.md R20) -/

/-- With its random byte given an instruction is itself, unless it is `RND`. -/
theorem rnd_or_execWith_eq_exec (i : Instr) :
    (∃ x kk, i = .rnd x kk) ∨ (∀ x kk, i ≠ .rnd x kk) ∧ ∀ rnd s, execWith rnd i s = exec i s := by
  cases i with
  | rnd x kk => exact .inl ⟨x, kk, rfl⟩
  | _ => exact .inr ⟨by simp, fun _ _ => rfl⟩

/-- Settles O14: without its random byte `execWith` is `exec`, and no other instruction has one. -/
theorem onlyRndReadsTheRandomInput : Obligations.OnlyRndReadsTheRandomInput := by
  intro s r₁ r₂ hrnd
  have hcycle : s.cycle (execWith r₁) = s.cycle (execWith r₂) := by
    cases hi : s.fetched with
    | none =>
      obtain ⟨e, he⟩ := State.cycle_of_not_fetched hi
      rw [he, he]
    | some i =>
      rw [State.cycle_of_fetched hi, State.cycle_of_fetched hi]
      obtain ⟨x, kk, rfl⟩ | ⟨-, heq⟩ := rnd_or_execWith_eq_exec i
      · exact absurd hi (hrnd x kk)
      · rw [heq, heq]
  rw [State.executeInstruction, hcycle, State.executeInstruction]

/-- Only `RND` counts a draw. -/
theorem exec_keeps_draws {i : Instr} {s t : State} (h : exec i s = .next t) (hi : ∀ x kk, i ≠ .rnd x kk) :
    t.draws = s.draws := by
  by_contra hne
  have hw : s.mayWrite i .draws := State.mayWrite_of_value_ne h (fun _ => Part.noConfusion) hne
  cases i with
  | rnd x kk => exact hi x kk rfl
  | _ => simp [State.mayWrite] at hw

/-- The state with its count of draws put at `d`. -/
def State.withDraws (d : Nat) (s : State) : State := { s with draws := d }

/-- With the free byte of its draw `execWith` is `exec`, but for the count of draws. -/
theorem execWith_rnd_draws (i : Instr) (s : State) :
    execWith (Config.rnd s.draws) i s = mapNext (State.withDraws s.draws) (exec i s) := by
  obtain ⟨x, kk, rfl⟩ | ⟨hi, heq⟩ := rnd_or_execWith_eq_exec i
  · rfl
  · rw [heq]
    cases hexec : exec i s with
    | next t =>
      have hdraws : t.draws = s.draws := exec_keeps_draws hexec hi
      rw [mapNext, State.withDraws, ← hdraws]
    | fault e => rfl
    | refused r => rfl

theorem State.cycle_execWith_rnd_draws (s : State) :
    s.cycle (execWith (Config.rnd s.draws)) = mapNext (State.withDraws s.draws) (step s) := by
  cases hi : s.fetched with
  | some i =>
    rw [State.cycle_of_fetched hi, step_of_fetched hi]
    exact execWith_rnd_draws i s.advance
  | none =>
    obtain ⟨e, he⟩ := State.cycle_of_not_fetched hi
    rw [step, he, he, mapNext]

theorem Fault.status_ne_ok (e : Fault) : e.status ≠ .ok := by
  cases e <;> decide

/-- Settles O13: the cycle of the transaction is the step, but for the count of draws. -/
theorem stepAgreesWithExecuteInstruction : Obligations.StepAgreesWithExecuteInstruction := by
  intro s
  have hcycle := s.cycle_execWith_rnd_draws
  unfold State.executeInstruction
  rw [hcycle]
  cases step s with
  | next t => simp [mapNext, State.withDraws]
  | fault e => simp [mapNext, e.status_ne_ok]
  | refused r => simp [mapNext]

/-! ## What a transaction leaves as it was (10_state.md R36) -/

section
variable {s t : State}

/-- The parts an instruction may write do not depend on `pc`. -/
theorem State.mayWrite_advance (i : Instr) (p : Part) : s.advance.mayWrite i p = s.mayWrite i p := by
  cases i <;> rfl

theorem State.afterError_onlyChanges : OnlyChanges s s.afterError fun p => p = .pc ∧ s.pc.toNat ≤ 0xFFE := by
  by_cases hpc : s.pc.toNat ≤ 0xFFE
  · rw [State.afterError_of_pc_le hpc]
    exact (s.setPc_onlyChanges _).mono fun p hp => ⟨hp, hpc⟩
  · rw [State.afterError_of_no_fetch (State.fetch_eq_none.2 (Nat.lt_of_not_le hpc))]
    exact OnlyChanges.refl s _

/-- With its random byte given, an instruction has its own frame and leaves the count of draws. -/
theorem execWith_onlyChanges (hwf : Memory.wf s.mem = true) {rnd : Byte} {i : Instr} (h : execWith rnd i s = .next t) :
    OnlyChanges s t fun p => s.mayWrite i p ∧ p ≠ .draws := by
  obtain ⟨x, kk, rfl⟩ | ⟨hi, heq⟩ := rnd_or_execWith_eq_exec i
  · obtain rfl := Host.Outcome.next.inj h
    exact (s.setV_onlyChanges x _).mono fun p hp => ⟨.inl hp, hp ▸ Part.noConfusion⟩
  · have hexec : exec i s = .next t := (heq rnd s).symm.trans h
    intro p hp
    by_cases hdraws : p = .draws
    · rw [hdraws]
      exact exec_keeps_draws hexec hi
    · exact instructionsWriteOnlyTheirParts i s t hwf hexec p fun hw => hp ⟨hw, hdraws⟩

theorem State.executeInstruction_onlyChanges (hwf : Memory.wf s.mem = true) (rnd : Byte) :
    OnlyChanges s (s.executeInstruction rnd).2 ((HostCall.executeInstruction rnd).mayWrite s) := by
  obtain herror | ⟨i, hi, hrun⟩ := s.executeInstruction_state_cases rnd
  · rw [herror]
    exact State.afterError_onlyChanges.mono fun _ => .inl
  · have hpc := State.pc_le_of_fetched hi
    refine OnlyChanges.trans (t := s.advance) ?_ ?_
    · exact (s.setPc_onlyChanges _).mono fun p hp => .inl ⟨hp, hpc⟩
    · refine (execWith_onlyChanges (s := s.advance) hwf hrun).mono fun p ⟨hw, hdraws⟩ => ?_
      exact .inr ⟨i, hi, State.mayWrite_advance i p ▸ hw, hdraws⟩

theorem State.load_onlyChanges (hwf : Memory.wf s.mem = true) (rom : List Byte) :
    OnlyChanges s (s.load rom).2 ((HostCall.load rom).mayWrite s) := by
  rcases Nat.lt_or_ge (4096 - 0x200) rom.length with hlong | hfits
  · rw [s.load_of_too_long hlong]
    exact OnlyChanges.refl s _
  · rw [s.load_of_fits hfits]
    exact State.storeBytes_onlyChanges hwf (.inr (by omega))

theorem State.setKey_of_key (k : Key) (pressed : Bool) : s.setKey k.val pressed = s.writeKey k pressed :=
  dif_pos k.isLt

theorem State.setKey_of_no_key {code : Nat} (h : 15 < code) (pressed : Bool) : s.setKey code pressed = s :=
  dif_neg (Nat.not_lt.2 h)

theorem State.setKey_onlyChanges (code : Nat) (pressed : Bool) :
    OnlyChanges s (s.setKey code pressed) ((HostCall.setKey code pressed).mayWrite s) := by
  rcases Nat.lt_or_ge 15 code with hno | hcode
  · rw [State.setKey_of_no_key hno]
    exact OnlyChanges.refl s _
  · have hkey := State.setKey_of_key (s := s) ⟨code, by omega⟩ pressed
    rw [hkey]
    exact (s.writeKey_onlyChanges _ pressed).mono fun p hp => ⟨_, rfl, hp⟩

end

/-- Settles O44: one frame for each transaction. -/
theorem transactionsWriteOnlyTheirParts : Obligations.TransactionsWriteOnlyTheirParts := by
  intro s c hwf
  cases c with
  | reset => exact fun p hp => (not_not.1 hp : p = .draws) ▸ rfl
  | load rom => exact State.load_onlyChanges hwf rom
  | executeInstruction rnd => exact State.executeInstruction_onlyChanges hwf rnd
  | tickTimers => exact s.tickTimers_onlyChanges
  | getDisplay => exact OnlyChanges.refl s _
  | setKey code pressed => exact State.setKey_onlyChanges code pressed

end Sys2Proof.Machine

/-! # Control flow (41_control_flow.md) -/

namespace Sys2Proof.Machine

/-- Settles O15: the two cases of the pop. -/
theorem returnPopsIntoPc : Obligations.ReturnPopsIntoPc := by
  refine fun s => ⟨fun j hj => ?pops, fun hsp => ?empty⟩
  case pops =>
    obtain ⟨a, u, hpop, hnext⟩ | ⟨hsp, -⟩ := execRet_cases s
    · have hframe := execRet_onlyChanges hnext
      obtain ⟨hpos, rfl, rfl⟩ := State.pop_eq_some.1 hpop
      exact ⟨_, hnext, by simp [hj], by simp [hj], hframe⟩
    · omega
  case empty =>
    obtain ⟨a, u, hpop, -⟩ | ⟨-, hfault⟩ := execRet_cases s
    · obtain ⟨hpos, -, -⟩ := State.pop_eq_some.1 hpop
      omega
    · exact hfault

/-- Settles O16: the two cases of the push. -/
theorem callPushesAndJumps : Obligations.CallPushesAndJumps := by
  refine fun s nnn => ⟨fun j hj => ?pushes, fun hsp => ?full⟩
  case pushes =>
    obtain ⟨u, hpush, hnext⟩ | ⟨hsp, -⟩ := execCall_cases nnn s
    · have hframe : OnlyChanges s _ fun p => p = .pc ∨ p = .sp ∨ p = .stack j :=
        (execCall_onlyChanges hnext).mono fun p => Or.imp_right <| Or.imp_right fun ⟨k, hk, hp⟩ =>
          (Fin.ext (hk.trans hj) : k = j) ▸ hp
      obtain ⟨hlt, rfl⟩ := State.push_eq_some.1 hpush
      exact ⟨_, hnext, addr16_toNat nnn, by simp [hj], by simp [hj], hframe⟩
    · omega
  case full =>
    obtain ⟨u, hpush, -⟩ | ⟨-, hfault⟩ := execCall_cases nnn s
    · obtain ⟨hlt, -⟩ := State.push_eq_some.1 hpush
      omega
    · exact hfault

/-- Settles O17: the pop takes the entry the push wrote, whatever `pc` is in between. -/
theorem returnUndoesCall : Obligations.ReturnUndoesCall := by
  intro s nnn a hsp
  obtain ⟨u, hpush, hcall⟩ | ⟨hfull, -⟩ := execCall_cases nnn s
  · obtain ⟨hlt, rfl⟩ := State.push_eq_some.1 hpush
    obtain ⟨b, w, hpop, hret⟩ | ⟨hempty, -⟩ := execRet_cases (State.setPc { s with
      stack := s.stack.set s.sp.val s.pc, sp := ⟨s.sp.val + 1, by omega⟩ } a)
    · obtain ⟨hpos, rfl, rfl⟩ := State.pop_eq_some.1 hpop
      refine ⟨_, _, hcall, hret, ?_, ?_, fun j hj => ?_⟩
      · simp
      · simp
      · simp [Nat.ne_of_gt hj]
    · simp at hempty
  · omega

/-- Settles O18: each jump is one write of `pc`, and 12 bits and 8 bits do not overflow 16. -/
theorem jumpsSetPc : Obligations.JumpsSetPc := by
  intro s nnn
  have htarget := nnn.isLt
  have hoffset := (s.getV 0).isLt
  refine ⟨⟨_, rfl, addr16_toNat nnn, s.setPc_onlyChanges _⟩, ⟨_, rfl, ?_, s.setPc_onlyChanges _⟩⟩
  rw [State.setPc_pc, BitVec.toNat_add, addr16_toNat, byte16_toNat]
  omega

/-- A skip on a condition: `pc`, and nothing else. -/
theorem skipIf_spec (c : Bool) (s : State) : ∃ t, skipIf c s = .next t ∧
    t.pc = (if c = true then s.pc + 2#16 else s.pc) ∧ OnlyChanges s t (· = .pc) :=
  ⟨_, skipIf_eq c s, rfl, s.setPc_onlyChanges _⟩

theorem skipIf_beq_spec (a b : Byte) (s : State) : ∃ t, skipIf (a == b) s = .next t ∧
    t.pc = (if a = b then s.pc + 2#16 else s.pc) ∧ OnlyChanges s t (· = .pc) := by
  simpa only [beq_iff_eq] using skipIf_spec (a == b) s

theorem skipIf_bne_spec (a b : Byte) (s : State) : ∃ t, skipIf (a != b) s = .next t ∧
    t.pc = (if a = b then s.pc else s.pc + 2#16) ∧ OnlyChanges s t (· = .pc) := by
  simpa only [bne_iff_ne, ne_eq, ite_not] using skipIf_spec (a != b) s

/-- Settles O19: each comparison is the condition of one skip. -/
theorem comparingSkipsAdvancePc : Obligations.ComparingSkipsAdvancePc := fun s x y kk =>
  ⟨skipIf_beq_spec (s.getV x) kk s, skipIf_bne_spec (s.getV x) kk s,
    skipIf_beq_spec (s.getV x) (s.getV y) s, skipIf_bne_spec (s.getV x) (s.getV y) s⟩

end Sys2Proof.Machine
/-! # The register ALU: arithmetic, logic, shifts and the random load (42_register_alu.md) -/

namespace Sys2Proof.Machine

/-- Settles O21: one register write. -/
theorem addImmediateWritesNoFlag : Obligations.AddImmediateWritesNoFlag := by
  refine fun s x kk => ⟨_, rfl, ?_, s.setV_onlyChanges x _⟩
  rw [State.getV_setV, if_pos rfl, BitVec.toNat_add]

/-- Settles O22: each is one register write, and the operations are bitwise. -/
theorem copyAndLogicWriteNoFlag : Obligations.CopyAndLogicWriteNoFlag := by
  intro s x y
  refine ⟨⟨_, rfl, ?_, s.setV_onlyChanges x _⟩, ⟨_, rfl, fun k => ?_, s.setV_onlyChanges x _⟩,
    ⟨_, rfl, fun k => ?_, s.setV_onlyChanges x _⟩, ⟨_, rfl, fun k => ?_, s.setV_onlyChanges x _⟩⟩
  all_goals rw [State.getV_setV, if_pos rfl]
  · exact BitVec.getLsbD_or
  · exact BitVec.getLsbD_and
  · exact BitVec.getLsbD_xor

section
variable (s : State)

@[simp] theorem State.getV_VF_setVFlag (x : Reg) (r f : Byte) : (s.setVFlag x r f).getV VF = f := by
  simp

theorem State.getV_setVFlag {x : Reg} (hx : x ≠ VF) (r f : Byte) : (s.setVFlag x r f).getV x = r := by
  simp [hx.symm]

end

theorem flagByte_toNat (c : Bool) : (flagByte c).toNat = if c = true then 1 else 0 := by
  cases c <;> rfl

/-- Settles O23: the sum is written first and the carry last. -/
theorem addRegistersSetsCarry : Obligations.AddRegistersSetsCarry := by
  refine fun s x y => ⟨_, rfl, fun hx => ?sum, ?carry, s.setVFlag_onlyChanges x _ _⟩
  case sum => rw [State.getV_setVFlag s hx, BitVec.toNat_add]
  case carry => simp only [State.getV_VF_setVFlag, carryFlag, flagByte_toNat, decide_eq_true_eq]

theorem sub_toNat (a b : Byte) : (a - b).toNat = (a.toNat + 256 - b.toNat) % 256 := by
  bv_omega

theorem noBorrowFlag_toNat (a b : Byte) : (noBorrowFlag a b).toNat = if a.toNat < b.toNat then 0 else 1 := by
  simp only [noBorrowFlag, flagByte_toNat, decide_eq_true_eq, ge_iff_le, ← Nat.not_lt, ite_not]

/-- The difference is written first and the flag of its operands last. -/
theorem State.setVFlag_sub_spec (s : State) (x : Reg) (a b : Byte) :
    (x ≠ VF → ((s.setVFlag x (a - b) (noBorrowFlag a b)).getV x).toNat = (a.toNat + 256 - b.toNat) % 256) ∧
    ((s.setVFlag x (a - b) (noBorrowFlag a b)).getV VF).toNat = (if a.toNat < b.toNat then 0 else 1) ∧
    OnlyChanges s (s.setVFlag x (a - b) (noBorrowFlag a b)) fun p => p = .v x ∨ p = .v VF := by
  refine ⟨fun hx => ?_, ?_, s.setVFlag_onlyChanges x _ _⟩
  · rw [State.getV_setVFlag s hx, sub_toNat]
  · rw [State.getV_VF_setVFlag, noBorrowFlag_toNat]

/-- Settles O24: `SUBN` is `SUB` with its operands exchanged. -/
theorem subtractionsSetNoBorrow : Obligations.SubtractionsSetNoBorrow := fun s x y =>
  ⟨⟨_, rfl, s.setVFlag_sub_spec x (s.getV x) (s.getV y)⟩, ⟨_, rfl, s.setVFlag_sub_spec x (s.getV y) (s.getV x)⟩⟩

theorem shiftedOutRight_toNat (a : Byte) : (shiftedOutRight a).toNat = a.toNat % 2 := by
  simp only [shiftedOutRight, flagByte_toNat, BitVec.getLsbD, Nat.testBit_zero, decide_eq_true_eq]
  split <;> omega

theorem shiftedOutLeft_toNat (a : Byte) : (shiftedOutLeft a).toNat = a.toNat / 128 := by
  have ha := a.isLt
  simp only [shiftedOutLeft, flagByte_toNat, BitVec.getLsbD, Nat.testBit_eq_decide_div_mod_eq, decide_eq_true_eq]
  split <;> omega

/-- Settles O25: the shifted byte is written first and the bit shifted out last. -/
theorem shiftsMoveOneBitToFlag : Obligations.ShiftsMoveOneBitToFlag := by
  refine fun s x y => ⟨⟨_, rfl, fun hx => ?right, ?_, s.setVFlag_onlyChanges x _ _⟩,
    ⟨_, rfl, fun hx => ?left, ?_, s.setVFlag_onlyChanges x _ _⟩⟩
  case right => rw [State.getV_setVFlag s hx, BitVec.toNat_ushiftRight, Nat.shiftRight_eq_div_pow, pow_one]
  case left => rw [State.getV_setVFlag s hx, BitVec.toNat_shiftLeft, Nat.shiftLeft_eq, pow_one]
  · rw [State.getV_VF_setVFlag, shiftedOutRight_toNat]
  · rw [State.getV_VF_setVFlag, shiftedOutLeft_toNat]

/-- Settles O26: one masked register write, of the drawn byte or of the byte given. -/
theorem randomLoadIsMasked : Obligations.RandomLoadIsMasked := by
  intro s x kk
  have hbit (b : Byte) (u : State) (k : Nat) :
      ((loadMasked b x kk u).getV x).getLsbD k = (b.getLsbD k && kk.getLsbD k) := by
    rw [loadMasked, State.getV_setV, if_pos rfl, BitVec.getLsbD_and]
  exact ⟨⟨_, rfl, hbit s.drawnByte s.countDraw, rfl, execRnd_onlyChanges rfl⟩,
    fun rnd => ⟨_, rfl, hbit rnd s, s.setV_onlyChanges x _⟩⟩

end Sys2Proof.Machine

/-! # The display: drawing, clearing and the frame copy (43_display.md R170, R172, R175, R180) -/

namespace Sys2Proof.Machine

/-- Settles O28: the buffer is replaced by the dark one. -/
theorem clearScreenTurnsEveryPixelOff : Obligations.ClearScreenTurnsEveryPixelOff := fun s =>
  ⟨_, rfl, FrameBuffer.read_dark, s.setFB_onlyChanges _⟩

/-! ## What one draw does to the pixels and to the flag (R172) -/

section
variable {s : State} {x y : Reg} {n : Nat}

theorem State.drawnPixels_nodup (hn : n ≤ 15) :
    (spritePixels (s.spriteOrigin x y).1 (s.spriteOrigin x y).2 (s.spriteRows n)).Nodup :=
  spritePixels_nodup (by simp [State.spriteRows]; omega)

theorem State.pixel_drawSprite_of_covers (hn : n ≤ 15) {px : Fin 64} {py : Fin 32} (h : s.spriteCovers x y n px py) :
    (s.drawSprite x y n).pixel px py = !(s.pixel px py) := by
  obtain ⟨hread, -⟩ := blit_spec s.fb false (State.drawnPixels_nodup (s := s) (x := x) (y := y) hn)
  rw [State.pixel_drawSprite, State.blitSprite, hread, decide_eq_true ((s.mem_sprite_iff x y n px py).2 h),
    Bool.xor_true]
  rfl

theorem State.pixel_drawSprite_of_not_covers (hn : n ≤ 15) {px : Fin 64} {py : Fin 32}
    (h : ¬ s.spriteCovers x y n px py) : (s.drawSprite x y n).pixel px py = s.pixel px py := by
  obtain ⟨hread, -⟩ := blit_spec s.fb false (State.drawnPixels_nodup (s := s) (x := x) (y := y) hn)
  rw [State.pixel_drawSprite, State.blitSprite, hread, decide_eq_false (mt (s.mem_sprite_iff x y n px py).1 h),
    Bool.xor_false]
  rfl

/-- The collision of a draw is a covered pixel that was lit. -/
theorem State.blitSprite_collides_iff (hn : n ≤ 15) :
    (s.blitSprite x y n).2 = true ↔ ∃ px py, s.spriteCovers x y n px py ∧ s.pixel px py = true := by
  obtain ⟨-, hcollision⟩ := blit_spec s.fb false (State.drawnPixels_nodup (s := s) (x := x) (y := y) hn)
  rw [State.blitSprite, hcollision, Bool.false_or, List.any_eq_true]
  simp only [Prod.exists, s.mem_sprite_iff]
  rfl

theorem flagByte_eq_one_iff (c : Bool) : flagByte c = 1#8 ↔ c = true := by
  cases c <;> decide

theorem State.getV_VF_drawSprite_eq_one_iff (hn : n ≤ 15) :
    (s.drawSprite x y n).getV VF = 1#8 ↔ ∃ px py, s.spriteCovers x y n px py ∧ s.pixel px py = true := by
  rw [State.getV_VF_drawSprite, flagByte_eq_one_iff, State.blitSprite_collides_iff hn]

theorem State.getV_VF_drawSprite_eq_zero (hn : n ≤ 15)
    (hdark : ∀ px py, s.spriteCovers x y n px py → s.pixel px py = false) : (s.drawSprite x y n).getV VF = 0#8 := by
  have hnone : (s.blitSprite x y n).2 = false := by
    rw [← Bool.not_eq_true, State.blitSprite_collides_iff hn]
    rintro ⟨px, py, hcovers, hlit⟩
    exact Bool.false_ne_true ((hdark px py hcovers).symm.trans hlit)
  rw [State.getV_VF_drawSprite, hnone]
  rfl

end

/-- Settles O29: the two cases of the bounds check, and what the blit does to each pixel. -/
theorem drawFlipsCoveredPixels : Obligations.DrawFlipsCoveredPixels := by
  refine fun s x y n hn => ⟨fun hin => ?draws, fun hn0 hpast => ?faults⟩
  case draws =>
    obtain ⟨-, hnext⟩ | ⟨hn0, hpast, -⟩ := execDrw_cases x y n s
    · exact ⟨_, hnext, fun px py => State.pixel_drawSprite_of_covers hn,
        fun px py => State.pixel_drawSprite_of_not_covers hn, (State.getV_VF_drawSprite_eq_one_iff hn).2,
        State.getV_VF_drawSprite_eq_zero hn, State.drawSprite_onlyChanges x y n⟩
    · omega
  case faults =>
    obtain ⟨hin, -⟩ | ⟨-, -, hfault⟩ := execDrw_cases x y n s
    · omega
    · exact hfault

/-! ## Two draws (R175) -/

/-- Which pixels a sprite covers is read from `I`, the memory and the two origin registers. -/
theorem State.spriteCovers_congr {s t : State} {x y : Reg} (hi : t.i = s.i) (hmem : t.mem = s.mem)
    (hx : t.getV x = s.getV x) (hy : t.getV y = s.getV y) (n : Nat) (px : Fin 64) (py : Fin 32) :
    t.spriteCovers x y n px py ↔ s.spriteCovers x y n px py := by
  simp only [State.spriteCovers, State.byteAt, hi, hmem, hx, hy]

/-- Settles O31: the second draw covers the same pixels, so it flips back what the first flipped, and a pixel is lit
before the second exactly when it was dark before the first. -/
theorem drawingTwiceRestoresPixels : Obligations.DrawingTwiceRestoresPixels := by
  intro s t x y n hn h hx hy
  obtain ⟨hin, hnext⟩ | ⟨-, -, hfault⟩ := execDrw_cases x y n s
  · obtain rfl := Host.Outcome.next.inj (hnext.symm.trans h)
    have hcovers := State.spriteCovers_congr (s := s) (t := s.drawSprite x y n) rfl rfl hx hy n
    have hrange : rangeInMemory (s.drawSprite x y n).i.toNat n = true := (rangeInMemory_iff _ _).2 hin
    refine ⟨_, exec_drw_in_memory hrange x y, fun px py => ?restored, ?flag⟩
    case restored =>
      by_cases hp : s.spriteCovers x y n px py
      · rw [State.pixel_drawSprite_of_covers hn ((hcovers px py).2 hp), State.pixel_drawSprite_of_covers hn hp,
          Bool.not_not]
      · rw [State.pixel_drawSprite_of_not_covers hn (mt (hcovers px py).1 hp),
          State.pixel_drawSprite_of_not_covers hn hp]
    case flag =>
      rw [State.getV_VF_drawSprite_eq_one_iff hn]
      refine exists_congr fun px => exists_congr fun py => ?_
      rw [hcovers]
      refine and_congr_right fun hp => ?_
      rw [State.pixel_drawSprite_of_covers hn hp, Bool.not_eq_true']
  · cases hfault.symm.trans h

/-! ## The frame copy (R180) -/

/-- The snapshot is the buffer flattened. -/
theorem FrameBuffer.snapshot_eq_flatten (fb : FrameBuffer) : FrameBuffer.snapshot fb = (Vector.flatten fb).toList := by
  show _ = (fb.toArray.map Vector.toArray).flatten.toList
  rw [Array.toList_flatten, Array.toList_map, List.map_map]
  rfl

/-- Settles O54: an index of a flattened vector splits into row and column. -/
theorem displayCopyIsRowMajor : Obligations.DisplayCopyIsRowMajor := by
  refine fun s => ⟨s.getDisplay, rfl, ?length, fun x y => ?element⟩
  case length => rw [State.getDisplay, FrameBuffer.snapshot_eq_flatten, Vector.length_toList]
  case element =>
    have hindex : y.val * 64 + x.val < 32 * 64 := by omega
    have hrow : (y.val * 64 + x.val) / 64 = y.val := by omega
    have hcolumn : (y.val * 64 + x.val) % 64 = x.val := by omega
    rw [State.getDisplay, FrameBuffer.snapshot_eq_flatten, Vector.getElem?_toList, Vector.getElem?_flatten,
      dif_pos hindex]
    simp only [hrow, hcolumn]
    rfl

end Sys2Proof.Machine

/-! # Keys and timers (44_input_timers.md) -/

namespace Sys2Proof.Machine

theorem skipIf_not_spec (c : Bool) (s : State) : ∃ t, skipIf (!c) s = .next t ∧
    t.pc = (if c = true then s.pc else s.pc + 2#16) ∧ OnlyChanges s t (· = .pc) := by
  simpa only [Bool.not_eq_true', ← Bool.not_eq_true, ite_not] using skipIf_spec (!c) s

/-- Settles O32: the key tested is that of the low nibble. -/
theorem keySkipsTestTheLowNibble : Obligations.KeySkipsTestTheLowNibble := by
  intro s x k hk
  obtain rfl : lowNibble (s.getV x) = k := Fin.ext ((lowNibble_val _).trans hk.symm)
  exact ⟨skipIf_spec _ s, skipIf_not_spec _ s⟩

section
variable {s : State} {x : Reg}

theorem exec_ldVxK_of_key {k : Key} (hk : s.keyDown k = true) (hleast : ∀ j, j < k → s.keyDown j = false) :
    exec (.ldVxK x) s = .next (s.setV x (BitVec.ofNat 8 k.val)) := by
  obtain ⟨j, hj, hnext⟩ | ⟨hnone, -⟩ := execLdVxK_cases x s
  · obtain rfl : j = k := Option.some.inj (hj.symm.trans (State.leastKey_eq_some.2 ⟨hk, hleast⟩))
    exact hnext
  · exact absurd ((State.leastKey_eq_none.1 hnone k).symm.trans hk) Bool.false_ne_true

theorem exec_ldVxK_of_no_key (hnone : ∀ k, s.keyDown k = false) : exec (.ldVxK x) s = .next s.park := by
  obtain ⟨j, hj, -⟩ | ⟨-, hnext⟩ := execLdVxK_cases x s
  · cases (State.leastKey_eq_none.2 hnone).symm.trans hj
  · exact hnext

theorem getV_setV_key (k : Key) : ((s.setV x (BitVec.ofNat 8 k.val)).getV x).toNat = k.val := by
  rw [State.getV_setV, if_pos rfl, BitVec.toNat_ofNat]
  omega

end

/-- Settles O33: the two cases of the least key. -/
theorem keyWaitTakesLeastKeyOrParks : Obligations.KeyWaitTakesLeastKeyOrParks := fun s x =>
  ⟨fun k hk hleast => ⟨_, exec_ldVxK_of_key hk hleast, getV_setV_key k, s.setV_onlyChanges x _⟩,
    fun hnone => ⟨_, exec_ldVxK_of_no_key hnone, rfl, s.setPc_onlyChanges _⟩⟩

/-- The park undoes the advance (R194). -/
theorem State.park_advance (s : State) : s.advance.park = s := by
  simp [State.setPc]

theorem State.keyDown_writeKey (s : State) (k j : Key) (pressed : Bool) :
    (s.writeKey k pressed).keyDown j = if j = k then pressed else s.keyDown j := by
  simp [State.keyDown, Vector.getElem_set, Fin.ext_iff, eq_comm]

/-- Settles O34: the park undoes the advance, and the key pressed, the only one, is the least. -/
theorem parkedKeyWaitResumesOnKey : Obligations.ParkedKeyWaitResumesOnKey := by
  intro s x k hi hnone
  refine ⟨?parks, ?resumes⟩
  case parks => rw [step_of_fetched hi, exec_ldVxK_of_no_key (s := s.advance) hnone, State.park_advance]
  case resumes =>
    rw [State.setKey_of_key]
    have hi' : (s.writeKey k true).fetched = some (.ldVxK x) := hi
    have hk : (s.writeKey k true).advance.keyDown k = true := (s.keyDown_writeKey k k true).trans (if_pos rfl)
    have hleast : ∀ j, j < k → (s.writeKey k true).advance.keyDown j = false := fun j hj =>
      (s.keyDown_writeKey k j true).trans ((if_neg (ne_of_lt hj)).trans (hnone j))
    refine ⟨_, (step_of_fetched hi').trans (exec_ldVxK_of_key hk hleast), getV_setV_key k,
      State.advance_pc_toNat (State.pc_le_of_fetched hi'), ?_⟩
    have hpress := s.writeKey_onlyChanges k true
    have hadvance := (s.writeKey k true).setPc_onlyChanges ((s.writeKey k true).pc + 2#16)
    have hload := (s.writeKey k true).advance.setV_onlyChanges x (BitVec.ofNat 8 k.val)
    exact (hpress.trans_or hadvance).trans_or hload

/-- Settles O35: each transfer is one register or timer write. -/
theorem timerTransfersCopy : Obligations.TimerTransfersCopy := fun s x =>
  ⟨⟨_, rfl, by rw [State.getV_setV, if_pos rfl], s.setV_onlyChanges x _⟩,
    ⟨_, rfl, rfl, s.setDT_onlyChanges _⟩, ⟨_, rfl, rfl, s.setST_onlyChanges _⟩⟩

end Sys2Proof.Machine

/-! # The index register and the transfers through it (45_index_memory.md) -/

namespace Sys2Proof.Machine

/-- Settles O38: each is one write of `I`. -/
theorem indexAddAndFontLookup : Obligations.IndexAddAndFontLookup := by
  refine fun s x => ⟨⟨_, rfl, ?sum, s.setI_onlyChanges _⟩, ⟨_, rfl, ?glyph, s.setI_onlyChanges _⟩⟩
  case sum => rw [State.setI_i, BitVec.toNat_add, byte16_toNat]
  case glyph => rw [State.setI_i, glyphAddr_toNat, lowNibble_val]

/-- A byte of a store that lies in memory. -/
theorem State.byteAt_storeBytes_add {s : State} (hwf : Memory.wf s.mem = true) {a j : Nat} {bs : List Byte}
    (hin : a + bs.length ≤ 4096) (hj : j < bs.length) : (s.storeBytes a bs).byteAt (a + j) = bs.getD j 0#8 := by
  rw [State.byteAt_storeBytes hwf (.inr hin), if_pos (by omega), Nat.add_sub_cancel_left]

theorem decimalDigits_getD_toNat (b : Byte) :
    ((decimalDigits b).getD 0 0#8).toNat = b.toNat / 100 ∧ ((decimalDigits b).getD 1 0#8).toNat = b.toNat / 10 % 10 ∧
    ((decimalDigits b).getD 2 0#8).toNat = b.toNat % 10 := by
  have hb := b.isLt
  refine ⟨?_, ?_, ?_⟩
  all_goals simp [decimalDigits]
  all_goals omega

/-- Settles O39: the three digits are the bytes of the one store. -/
theorem decimalDigitsAreStored : Obligations.DecimalDigitsAreStored := by
  refine fun s x hwf => ⟨fun hin => ?stores, fun hpast => ?faults⟩
  case stores =>
    obtain ⟨-, hnext⟩ | ⟨hpast, -⟩ := execLdB_cases x s
    · obtain ⟨hundreds, htens, hunits⟩ := decimalDigits_getD_toNat (s.getV x)
      have hlen := decimalDigits_length (s.getV x)
      have hbyte (j : Nat) (hj : j < 3) :=
        State.byteAt_storeBytes_add hwf (a := s.i.toNat) (bs := decimalDigits (s.getV x)) (j := j) (by omega) (by omega)
      refine ⟨_, hnext, ?_, ?_, ?_, State.storeBytes_onlyChanges hwf (.inr (by omega))⟩
      · rw [← hundreds, ← hbyte 0 (by omega), Nat.add_zero]
      · rw [← htens, ← hbyte 1 (by omega)]
      · rw [← hunits, ← hbyte 2 (by omega)]
    · omega
  case faults =>
    obtain ⟨hin, -⟩ | ⟨-, hfault⟩ := execLdB_cases x s
    · omega
    · exact hfault

/-- A stored register, in the store of `LD [I], Vx`. -/
theorem State.byteAt_storeRegisters {s : State} (hwf : Memory.wf s.mem = true) {x r : Reg}
    (hin : s.i.toNat + x.val ≤ 0xFFF) (hr : r ≤ x) :
    (s.storeBytes s.i.toNat (s.firstRegs x)).byteAt (s.i.toNat + r.val) = s.getV r := by
  have hlen := s.firstRegs_length x
  have hlt : r.val < x.val + 1 := Nat.lt_succ_of_le hr
  rw [State.byteAt_storeBytes_add hwf (by omega) (by omega), s.firstRegs_getD x r hr]

/-- Settles O40: the registers are the bytes of the one store. -/
theorem registersAreStoredThroughI : Obligations.RegistersAreStoredThroughI := by
  refine fun s x hwf => ⟨fun hin => ?stores, fun hpast => ?faults⟩
  case stores =>
    obtain ⟨-, hnext⟩ | ⟨hpast, -⟩ := execLdMemVx_cases x s
    · exact ⟨_, hnext, fun r => State.byteAt_storeRegisters hwf hin,
        instructionsWriteOnlyTheirParts (.ldMemVx x) s _ hwf hnext⟩
    · omega
  case faults =>
    obtain ⟨hin, -⟩ | ⟨-, hfault⟩ := execLdMemVx_cases x s
    · omega
    · exact hfault

/-- Settles O41: the one load of `V0` to `Vx`. -/
theorem registersAreLoadedThroughI : Obligations.RegistersAreLoadedThroughI := by
  refine fun s x => ⟨fun hin => ?loads, fun hpast => ?faults⟩
  case loads =>
    obtain ⟨-, hnext⟩ | ⟨hpast, -⟩ := execLdVxMem_cases x s
    · exact ⟨_, hnext, fun r hr => by rw [State.getV_loadV, if_pos hr], s.loadV_onlyChanges x _⟩
    · omega
  case faults =>
    obtain ⟨hin, -⟩ | ⟨-, hfault⟩ := execLdVxMem_cases x s
    · omega
    · exact hfault

/-- Settles O42: the two bytes fetched are two bytes of the store. -/
theorem storedWordIsFetched : Obligations.StoredWordIsFetched := by
  intro s t x j k hwf h hjk hkx hpc
  obtain ⟨hin, hnext⟩ | ⟨-, hfault⟩ := execLdMemVx_cases x s
  · obtain rfl := Host.Outcome.next.inj (hnext.symm.trans h)
    have hkx' : k.val ≤ x.val := hkx
    have hjx : j ≤ x := Fin.le_def.2 (by omega)
    refine ⟨_, (State.fetch_eq _).trans (if_pos (by omega)), ?_⟩
    rw [wordOfBytes_toNat, hpc, State.byteAt_storeRegisters hwf hin hjx, Nat.add_assoc, ← hjk,
      State.byteAt_storeRegisters hwf hin hkx]
  · cases hfault.symm.trans h

end Sys2Proof.Machine

/-! # The whole state and the host transactions (10_state.md R34, R35; 60_exceptions.md; 70_reset_and_hazards.md) -/

namespace Sys2Proof.Machine

theorem bool_toNat_injective : Function.Injective Bool.toNat := Function.LeftInverse.injective Bool.ofNat_toNat

/-- Settles O48: each field is read off the parts it shows, and a canonical memory off its bytes. -/
theorem observablePartsDetermineState : Obligations.ObservablePartsDetermineState := by
  intro s t hs ht h
  have hv : s.v = t.v := Vector.ext fun r hr => BitVec.eq_of_toNat_eq (h (.v ⟨r, hr⟩))
  have hi : s.i = t.i := BitVec.eq_of_toNat_eq (h .i)
  have hpc : s.pc = t.pc := BitVec.eq_of_toNat_eq (h .pc)
  have hsp : s.sp = t.sp := Fin.ext (h .sp)
  have hstack : s.stack = t.stack := Vector.ext fun j hj => BitVec.eq_of_toNat_eq (h (.stack ⟨j, hj⟩))
  have hdt : s.dt = t.dt := BitVec.eq_of_toNat_eq (h .dt)
  have hst : s.st = t.st := BitVec.eq_of_toNat_eq (h .st)
  have hkey : s.key = t.key := Vector.ext fun k hk => bool_toNat_injective (h (.key ⟨k, hk⟩))
  have hfb : s.fb = t.fb := FrameBuffer.ext fun x y => bool_toNat_injective (h (.pixel x y))
  have hmem : s.mem = t.mem := Memory.ext hs ht fun a => BitVec.eq_of_toNat_eq (h (.mem a))
  have hdraws : s.draws = t.draws := h .draws
  cases s
  cases t
  simp_all

/-! ## Reset (R260) -/

/-- The sixteen glyphs, five bytes each as one number, the top row first. -/
def glyphNumbers : List Nat :=
  [0xF0909090F0, 0x2060202070, 0xF010F080F0, 0xF010F010F0, 0x9090F01010, 0xF080F010F0, 0xF080F090F0, 0xF010204040,
   0xF090F090F0, 0xF090F010F0, 0xF090F09090, 0xE090E090E0, 0xF0808080F0, 0xE0909090E0, 0xF080F080F0, 0xF080F08080]

theorem fontTable_glyphs : ∀ d < 16, ∀ j < 5,
    (fontTable.getD (5 * d + j) 0#8).toNat = glyphNumbers.getD d 0 / 256 ^ (4 - j) % 256 := by
  decide

theorem resetByte_font (k : Nat) : resetByte (0x050 + k) = fontTable.getD k 0#8 := by
  rw [resetByte, fontBase, if_pos (Nat.le_add_right _ _), Nat.add_sub_cancel_left]

theorem reset_value_mem (a : Nat) : State.reset.value (.mem a) = (resetByte a).toNat := rfl

/-- Settles O49: the reset memory lists no byte, so each byte is its reset byte. -/
theorem resetLeavesTheResetValues : Obligations.ResetLeavesTheResetValues := by
  refine ⟨fun s p hp => ?any, fun d j g hj hg => ?font, fun a ha => ?zeroMem, rfl, fun p hmem hpc hdraws => ?zero⟩
  case any =>
    cases p with
    | draws => exact absurd rfl hp
    | _ => rfl
  case font =>
    have hd : d < glyphNumbers.length := (List.getElem?_eq_some_iff.1 hg).1
    have hglyph : glyphNumbers.getD d 0 = g := by
      rw [List.getD_eq_getElem?_getD]
      exact congrArg (Option.getD · 0) hg
    rw [reset_value_mem, Nat.add_assoc, resetByte_font, fontTable_glyphs d hd j hj, hglyph]
  case zeroMem =>
    rw [reset_value_mem, resetByte_outside_font ha]
    rfl
  case zero =>
    cases p with
    | mem a => exact absurd rfl (hmem a)
    | pc => exact absurd rfl hpc
    | draws => exact absurd rfl hdraws
    | pixel x y => simp [State.value, State.pixel, State.reset, FrameBuffer.read]
    | _ => simp [State.value, State.reset, State.getV, State.keyDown]

/-! ## Ticks, keys, errors and runs -/

/-- Settles O52, by induction on the number of ticks. -/
theorem ticksCountDownToZero : Obligations.TicksCountDownToZero := by
  intro n
  induction n with
  | zero => exact fun s => ⟨rfl, rfl⟩
  | succ n ih =>
    intro s
    obtain ⟨hdt, hst⟩ := ih s.tickTimers
    rw [State.tickTimers_dt_toNat, Nat.sub_sub, Nat.add_comm] at hdt
    rw [State.tickTimers_st_toNat, Nat.sub_sub, Nat.add_comm] at hst
    exact ⟨hdt, hst⟩

/-- Settles O53: a code up to 15 names one key. -/
theorem setKeyWritesOneKey : Obligations.SetKeyWritesOneKey := by
  refine fun s pressed =>
    ⟨fun k => ⟨s.writeKey k pressed, ?_, ?_, s.writeKey_onlyChanges k pressed⟩, fun code hcode => ?_⟩
  · rw [State.call, State.setKey_of_key]
  · rw [State.keyDown_writeKey, if_pos rfl]
  · rw [State.call, State.setKey_of_no_key hcode]

theorem Fault.status_ne_capacityExceeded (e : Fault) : e.status ≠ .capacityExceeded := by
  cases e <;> decide

theorem State.executeInstruction_ne_capacityExceeded (s : State) (rnd : Byte) :
    (s.executeInstruction rnd).1 ≠ .capacityExceeded := by
  unfold State.executeInstruction
  split
  · nofun
  · next e _ => exact e.status_ne_capacityExceeded
  · nofun

/-- The result of a numeric code (R231). -/
def statusOfCode (n : Nat) : Option Status :=
  [.ok, .unknownOpcode, .stackOverflow, .stackUnderflow, .outOfBoundsAccess, .capacityExceeded][n]?

theorem statusOfCode_code (a : Status) : statusOfCode a.code = some a := by
  cases a <;> rfl

theorem Status.code_injective {a b : Status} (h : a.code = b.code) : a = b :=
  Option.some.inj ((statusOfCode_code a).symm.trans (h ▸ statusOfCode_code b))

/-- Settles O56: a load returns `ok` or its one error, and an instruction never returns that one. -/
theorem transactionsReturnOnlyTheirErrors : Obligations.TransactionsReturnOnlyTheirErrors := by
  refine ⟨fun s c hne => ?_, fun a b => Status.code_injective⟩
  cases c with
  | load rom =>
    rcases Nat.lt_or_ge (4096 - 0x200) rom.length with hlong | hfits
    · exact .inl ⟨⟨rom, rfl⟩, congrArg Prod.fst (s.load_of_too_long hlong)⟩
    · exact absurd (congrArg Prod.fst (s.load_of_fits hfits)) hne
  | executeInstruction rnd => exact .inr ⟨⟨rnd, rfl⟩, s.executeInstruction_ne_capacityExceeded rnd⟩
  | reset | tickTimers | getDisplay | setKey => exact absurd rfl hne

theorem State.run_cons_of_ok {s : State} {c : HostCall} (h : (s.call c).1.status = .ok) (cs : List HostCall) :
    State.run (c :: cs) s = ((s.call c).1 :: (State.run cs (s.call c).2).1, (State.run cs (s.call c).2).2) :=
  if_pos h

theorem State.run_cons_of_error {s : State} {c : HostCall} (h : (s.call c).1.status ≠ .ok) (cs : List HostCall) :
    State.run (c :: cs) s = State.calls [c] s :=
  if_neg h

/-- Settles O57, by induction on the transactions before the error. -/
theorem runEndsAtFirstError : Obligations.RunEndsAtFirstError := by
  intro cs
  induction cs with
  | nil => exact fun s _ => ⟨rfl, fun c more herror => State.run_cons_of_error herror more⟩
  | cons c cs ih =>
    intro s hok
    obtain ⟨hc, hcs⟩ := List.forall_mem_cons.1 hok
    obtain ⟨hrun, herrs⟩ := ih (s.call c).2 hcs
    refine ⟨?_, fun d more herror => ?_⟩
    · rw [State.run_cons_of_ok hc, hrun, State.calls]
    · rw [List.cons_append, State.run_cons_of_ok hc, herrs d more herror, List.cons_append, State.calls]

end Sys2Proof.Machine
